-- ==== Sys2Proof/Word.lean ====
section
/-! DEFINITION. The word and byte types. Every register, operand, result, round constant and intermediate value is 64 bits
wide (spec/00_scope.md R3, R6); bit 0 is the least significant (R9). -/

namespace Sys2Proof

/-- A 64-bit unsigned value, `u64` of 00_scope.md section 4. -/
abbrev Word := BitVec 64

/-- One byte lane of the bus data word (20_memory.md R83). -/
abbrev Byte := BitVec 8

end Sys2Proof
end

