-- ==== Sys2Proof/Config.lean ====
section
/-! DEFINITION. The parameters fixed when the hardware is built (spec/00_scope.md R7, R8). The OPEN ones have no value in
the spec: they are opaque constants without a body, so nothing can be proved about them beyond the ranges R7 gives
(assumption log 6, DESIGN CHOICE, safe). -/

namespace Sys2Proof

/-- One legal choice of every OPEN parameter of R7, with the constraints R7 states. The functions of the model take a
`Params`, so that a claim proved for every `Params` holds for every build. -/
structure Params where
  /-- `NUM_RC`, the length of the round-constant table. -/
  numRc : Nat
  /-- `RC[i]`; only the indices below `numRc` are in the table (10_state.md R59; log 7). -/
  rc : Nat → Word
  /-- `MIX_S1`, the first (right) xor-shift amount. -/
  mixS1 : Nat
  /-- `MIX_S2`, the second (left) xor-shift amount. -/
  mixS2 : Nat
  /-- `MIX_S3`, the third (right) xor-shift amount. -/
  mixS3 : Nat
  /-- `MIX_M`, the odd multiplier. -/
  mixM : Word
  /-- `FPE_BASE`, the bus address of the register window. -/
  fpeBase : Nat
  numRc_ge : 12 ≤ numRc
  numRc_le : numRc ≤ 255
  mixS1_ge : 1 ≤ mixS1
  mixS1_le : mixS1 ≤ 63
  mixS2_ge : 1 ≤ mixS2
  mixS2_le : mixS2 ≤ 63
  mixS3_ge : 1 ≤ mixS3
  mixS3_le : mixS3 ≤ 63
  mixM_odd : mixM.toNat % 2 = 1
  fpeBase_aligned : fpeBase % 0x80 = 0

namespace Config

/-- `DEFAULT_ROUNDS` (R7): the round count the host syntax supplies (30_encoding.md R110). -/
def defaultRounds : Nat := 3

/-- `MAX_BITS` (R7): the largest total bit width. -/
def maxBits : Nat := 64

/-- `ROUNDS_FIELD_WIDTH` (R7): the width in bits of the round-count field. -/
def roundsFieldWidth : Nat := 8

/-- `NUM_RC - 12`: every value of `NUM_RC` in `[12, 255]`. -/
opaque numRcAboveTwelve : Fin 244

/-- `RC`. -/
opaque roundConstant : Nat → Word

/-- `MIX_S1 - 1`: every shift in `[1, 63]`. -/
opaque mixS1LessOne : Fin 63

/-- `MIX_S2 - 1`. -/
opaque mixS2LessOne : Fin 63

/-- `MIX_S3 - 1`. -/
opaque mixS3LessOne : Fin 63

/-- The bits `[63:1]` of the odd multiplier `MIX_M`. -/
opaque mixMHigh : BitVec 63

/-- `FPE_BASE / 0x80`: every multiple of 0x80. -/
opaque windowNumber : Nat

/-- The parameters of the hardware at hand: every legal choice is one value of the opaque constants. -/
def params : Params where
  numRc := 12 + numRcAboveTwelve.val
  rc := roundConstant
  mixS1 := 1 + mixS1LessOne.val
  mixS2 := 1 + mixS2LessOne.val
  mixS3 := 1 + mixS3LessOne.val
  mixM := mixMHigh ++ 1#1
  fpeBase := 0x80 * windowNumber
  numRc_ge := by omega
  numRc_le := by omega
  mixS1_ge := by omega
  mixS1_le := by omega
  mixS2_ge := by omega
  mixS2_le := by omega
  mixS3_ge := by omega
  mixS3_le := by omega
  mixM_odd := by
    rw [BitVec.toNat_append, Nat.shiftLeft_eq, Nat.or_mod_two_pow (n := 1)]
    simp
  fpeBase_aligned := by omega

end Config

end Sys2Proof
end

