-- ==== Sys2Proof/Syntax.lean ====
section
/-! DEFINITION. The commands: one constructor per row of spec/opcode_table.json (spec/30_encoding.md R101). The 64-bit
operands are not in the command word: they are `OPA` and `OPB` as they stood at accept (R103). -/

namespace Sys2Proof

/-- A command. `rounds` is the `ROUNDS` field as a number (R102); `Instr.wellFormed` keeps it inside the field. In the
host syntax of R109 the constructors are `cfg.range #r`, `cfg.feistel #r`, `range.enc`, `range.dec`, `feistel.enc`,
`feistel.dec`. -/
inductive Instr where
  | cfgRange (rounds : Nat)
  | cfgFeistel (rounds : Nat)
  | rangeEnc
  | rangeDec
  | feistelEnc
  | feistelDec
deriving DecidableEq, Repr

end Sys2Proof
end

