-- ==== Sys2Proof/WellFormed.lean ====
section
/-! DEFINITION. Which commands the assembler takes: "`#r` is a decimal or `0x`-prefixed integer in `[0, 255]`; anything else
is refused by the assembler" (spec/30_encoding.md R109; field width R102). -/

namespace Sys2Proof

/-- The round count fits the 8-bit field. -/
def roundsFit (r : Nat) : Bool := r < 2 ^ Config.roundsFieldWidth

/-- A command the assembler can encode. -/
def Instr.wellFormed : Instr → Bool
  | .cfgRange r => roundsFit r
  | .cfgFeistel r => roundsFit r
  | .rangeEnc => true
  | .rangeDec => true
  | .feistelEnc => true
  | .feistelDec => true

end Sys2Proof
end

