-- ==== Sys2Proof/Decode.lean ====
section
/-! DEFINITION. Decoding a command word, the encoder, and the byte lanes of a word (spec/30_encoding.md R100 to R106,
spec/20_memory.md R83). -/

namespace Sys2Proof

/-- Why a word is no command. All of them end in the completion `ILLEGAL_CMD` (60_exceptions.md R203); `notOneWord` is
for a byte list that is not the 8 lanes of one word, which no bus access delivers (R81). -/
inductive Illegal where
  | reservedBitsSet
  | reservedOp
  | roundsOnNonConfig
  | notOneWord
deriving DecidableEq, Repr

/-- `cmd[3:0]` (R100). -/
def opField (cmd : Word) : BitVec 4 := cmd.extractLsb' 0 4

/-- `cmd[7:4]`, which must be 0 (R100). -/
def reservedLow (cmd : Word) : BitVec 4 := cmd.extractLsb' 4 4

/-- `cmd[15:8]` (R102). -/
def roundsField (cmd : Word) : BitVec 8 := cmd.extractLsb' 8 8

/-- `cmd[63:16]`, which must be 0 (R100). -/
def reservedHigh (cmd : Word) : BitVec 48 := cmd.extractLsb' 16 48

/-- An encode or decode command, whose `ROUNDS` field must be 0 (R100, R104). -/
def withoutRounds (rounds : BitVec 8) (i : Instr) : Except Illegal Instr :=
  if rounds = 0#8 then .ok i else .error .roundsOnNonConfig

/-- The command an `OP` value selects (R101); 0x0 and 0x7 to 0xF are reserved. -/
def decodeOp (op : BitVec 4) (rounds : BitVec 8) : Except Illegal Instr :=
  match op.toNat with
  | 1 => .ok (.cfgRange rounds.toNat)
  | 2 => .ok (.cfgFeistel rounds.toNat)
  | 3 => withoutRounds rounds .rangeEnc
  | 4 => withoutRounds rounds .rangeDec
  | 5 => withoutRounds rounds .feistelEnc
  | 6 => withoutRounds rounds .feistelDec
  | _ => .error .reservedOp

/-- `decode` of R106, total on 64-bit words. -/
def decode (cmd : Word) : Except Illegal Instr :=
  if reservedHigh cmd = 0#48 ∧ reservedLow cmd = 0#4 then decodeOp (opField cmd) (roundsField cmd)
  else .error .reservedBitsSet

/-- Lane `k` of a word carries bits `[8k+7:8k]` (20_memory.md R83). -/
def lane (w : Word) (k : Nat) : Byte := w.extractLsb' (8 * k) 8

/-- The 8 lanes of a word, lane 0 first. -/
def lanesOf (w : Word) : List Byte := (List.range 8).map (lane w)

/-- The word whose lanes are the given bytes, lane 0 first; only 8 bytes make a word (20_memory.md R81). -/
def wordOfLanes : List Byte → Option Word
  | [b0, b1, b2, b3, b4, b5, b6, b7] => some (b7 ++ b6 ++ b5 ++ b4 ++ b3 ++ b2 ++ b1 ++ b0)
  | _ => none

/-- Decoding a command given as bytes. -/
def decodeLanes (bytes : List Byte) : Except Illegal Instr :=
  match wordOfLanes bytes with
  | some w => decode w
  | none => .error .notOneWord

/-- The word of a table row: its low `nbits` bits, every higher bit 0 (log 23). -/
def tableWord (nbits w : Nat) : Word := BitVec.ofNat 64 (w % 2 ^ nbits)

/-- What the decoder reads from an instruction numbered as spec/opcode_table.json numbers it: laid out in its lanes and
decoded. A row longer than the one 64-bit format (R100) is no command (log 23). -/
def decodeTableWord (nbits w : Nat) : Option Instr :=
  if nbits ≤ 64 then (decodeLanes (lanesOf (tableWord nbits w))).toOption else none

/-- The `OP` value of a command (R101). -/
def Instr.op : Instr → BitVec 4
  | .cfgRange _ => 1#4
  | .cfgFeistel _ => 2#4
  | .rangeEnc => 3#4
  | .rangeDec => 4#4
  | .feistelEnc => 5#4
  | .feistelDec => 6#4

/-- The `ROUNDS` field of a command (R102): 0 for every command but the two configuration commands (R100). -/
def Instr.roundsBits : Instr → BitVec 8
  | .cfgRange r => BitVec.ofNat 8 r
  | .cfgFeistel r => BitVec.ofNat 8 r
  | .rangeEnc => 0#8
  | .rangeDec => 0#8
  | .feistelEnc => 0#8
  | .feistelDec => 0#8

/-- The command word (R100): 48 zeros, `ROUNDS`, 4 zeros, `OP`. -/
def encode (i : Instr) : Word := 0#48 ++ i.roundsBits ++ 0#4 ++ i.op

/-- The assembler of R109: the command word of a well-formed command, and nothing for any other. -/
def assemble (i : Instr) : Option Word := if i.wellFormed then some (encode i) else none

end Sys2Proof
end

