-- ==== Sys2Proof/Machine/State.lean ====
section
/-! DEFINITION. The state of the block (spec/10_state.md), its reset value (spec/70_reset_and_hazards.md R230), and the
reasons a step can stop. Registers whose reserved bits read 0 are held as their fields; Machine/Flags.lean packs them. -/

namespace Sys2Proof.Machine

/-- The completion codes of 60_exceptions.md R201; values 7 to 15 are never produced, so they have no constructor. -/
inductive Code where
  | ok
  | illegalCmd
  | rangeEmpty
  | roundsExceedTable
  | bitsTooWide
  | notConfigured
  | outOfDomain
deriving DecidableEq, Repr

/-- The fields of `STATUS` (10_state.md R38 to R43). -/
structure Status where
  busy : Bool
  done : Bool
  ovr : Bool
  rangeValid : Bool
  feistelValid : Bool
  err : Code
deriving DecidableEq, Repr

/-- The fields of `CFG_GEOM` (10_state.md R52 to R54). -/
structure Geom where
  w : BitVec 7
  h : BitVec 6
  rounds : BitVec 8
deriving DecidableEq, Repr

/-- The configuration registers `CFG_MIN`, `CFG_SIZE`, `CFG_GEOM`, `CFG_HALF_MASK` (10_state.md R50 to R56). -/
structure CfgRegs where
  min : Word
  size : Word
  geom : Geom
  halfMask : Word
deriving DecidableEq, Repr

/-- What the engine copies at accept (10_state.md R60, 20_memory.md R88). -/
structure Latch where
  cmd : Word
  a : Word
  b : Word
  cfg : CfgRegs
  rangeValid : Bool
  feistelValid : Bool
deriving DecidableEq, Repr

/-- What the slave port answered to the last host access (10_state.md R30: read data; a bus error is a fault, 20_memory.md
R82). `idle` when no access was answered since reset (log 9). -/
inductive PortReply where
  | idle
  | readData (v : Word)
  | written
deriving DecidableEq, Repr

/-- One thing that reaches the block, in the order of 20_memory.md R90: a host read or write at the slave port (offset in
the 0x80-byte window, width in bits, log 13, log 14), the engine's turn to complete (60_exceptions.md R212), or a level of
the reset input `rst_n` (70_reset_and_hazards.md R230). -/
inductive Input where
  | read (offset : BitVec 7) (widthBits : Nat)
  | write (offset : BitVec 7) (widthBits : Nat) (data : Word)
  | engine
  | rst (level : Bool)
deriving DecidableEq, Repr

/-- The whole state. `rstN` is the level of `rst_n`; `inputs` is the model's own: what is still to reach the block, first
one next (20_memory.md R90; log 1). -/
structure State where
  /-- `CTRL.IE` (10_state.md R36). -/
  ie : Bool
  /-- `STATUS` (R38 to R44). -/
  status : Status
  /-- What a read of `CMD` returns (R45). -/
  cmdLast : Word
  /-- `OPA` (R46). -/
  opa : Word
  /-- `OPB` (R47). -/
  opb : Word
  /-- `RESULT` (R48). -/
  result : Word
  /-- `ITER_COUNT` (R49). -/
  iterCount : Word
  /-- `CFG_MIN`, `CFG_SIZE`, `CFG_GEOM`, `CFG_HALF_MASK` (R50 to R56). -/
  cfg : CfgRegs
  /-- The copies of the command in flight (R60). -/
  latch : Latch
  /-- The level of the reset input (R30). -/
  rstN : Bool
  /-- The port's last answer (R30). -/
  reply : PortReply
  /-- What is still to reach the block (20_memory.md R90). -/
  inputs : List Input
deriving DecidableEq, Repr

/-- Why a step stops with a fault. -/
inductive Fault where
  /-- A host access that is not 64 bits wide or not at a multiple of 8: "A model treats such an access as a fault of the
  host step" (20_memory.md R82). Raised by `hostRead` and `hostWrite`. Safe. -/
  | busError
  /-- A host access while `rst_n` is asserted (70_reset_and_hazards.md R230). Raised by `hostRead` and `hostWrite`. Safe. -/
  | accessInReset
  /-- A cycle walk that has not come back into range after `2^(2h)` applications. 42_range.md R171 rules it out for every
  configuration a command can build, so only states no run reaches raise it (log 5). Raised by `execRangeEnc` and
  `execRangeDec`. Safe. -/
  | walkUnending
deriving DecidableEq, Repr

/-- Why the model has no meaning for a command. -/
inductive Refusal where
  /-- A command whose meaning is not written. Raised only by a refused arm of `exec`; there is none. Safe. -/
  | notModelled (mnemonic : String)
deriving DecidableEq, Repr

/-- `STATUS` after reset: 0 (10_state.md R38 to R43). -/
def Status.reset : Status :=
  { busy := false, done := false, ovr := false, rangeValid := false, feistelValid := false, err := .ok }

/-- The configuration registers after reset: 0 (10_state.md R50 to R56). -/
def CfgRegs.reset : CfgRegs :=
  { min := 0#64, size := 0#64, geom := { w := 0#7, h := 0#6, rounds := 0#8 }, halfMask := 0#64 }

/-- The copies after reset. R60 says no reset value matters; DESIGN CHOICE zero (log 8). -/
def Latch.reset : Latch :=
  { cmd := 0#64, a := 0#64, b := 0#64, cfg := CfgRegs.reset, rangeValid := false, feistelValid := false }

/-- The block right after reset: `rst_n` deasserted, every register at its reset value, the engine idle
(70_reset_and_hazards.md R230), nothing yet to reach it (log 1). -/
def State.reset : State :=
  { ie := false, status := Status.reset, cmdLast := 0#64, opa := 0#64, opb := 0#64, result := 0#64,
    iterCount := 0#64, cfg := CfgRegs.reset, latch := Latch.reset, rstN := true, reply := .idle, inputs := [] }

end Sys2Proof.Machine
end

