-- ==== Sys2Proof/Machine/Flags.lean ====
section
/-! DEFINITION. The bits of the registers that are held as fields (spec/10_state.md R33, R36 to R44, R52 to R57), how the
STATUS flags change, and the interrupt level (spec/60_exceptions.md R214). -/

namespace Sys2Proof.Machine

/-- The number of a completion code (60_exceptions.md R201). -/
def Code.bits : Code → BitVec 4
  | .ok => 0#4
  | .illegalCmd => 1#4
  | .rangeEmpty => 2#4
  | .roundsExceedTable => 3#4
  | .bitsTooWide => 4#4
  | .notConfigured => 5#4
  | .outOfDomain => 6#4

/-- Codes 2, 3 and 4 are configuration errors (60_exceptions.md R202, R209). -/
def Code.isConfigError : Code → Bool
  | .ok => false
  | .illegalCmd => false
  | .rangeEmpty => true
  | .roundsExceedTable => true
  | .bitsTooWide => true
  | .notConfigured => false
  | .outOfDomain => false

/-- One bit. -/
def bit (b : Bool) : BitVec 1 := BitVec.ofBool b

/-- `STATUS` as a host reads it: reserved bits 0 (10_state.md section 4, R44). -/
def Status.toWord (t : Status) : Word :=
  0#52 ++ t.err.bits ++ 0#3 ++ bit t.feistelValid ++ bit t.rangeValid ++ bit t.ovr ++ bit t.done ++ bit t.busy

/-- `CTRL` as a host reads it: `IE` and 63 zeros (10_state.md R36, R37). -/
def ctrlWord (ie : Bool) : Word := 0#63 ++ bit ie

/-- `CFG_GEOM` as a host reads it (10_state.md section 7, R55). -/
def Geom.toWord (g : Geom) : Word := 0#40 ++ g.rounds ++ 0#2 ++ g.h ++ 0#1 ++ g.w

/-- The constant `ID` (10_state.md R57). -/
def idWord (P : Params) : Word :=
  0#40 ++ BitVec.ofNat 8 Config.maxBits ++ BitVec.ofNat 8 Config.defaultRounds ++ BitVec.ofNat 8 P.numRc

/-- A host write of `v` to `STATUS`: a 1 in bit 1 clears `DONE`, a 1 in bit 2 clears `OVR` (20_memory.md R85,
10_state.md R44). -/
def Status.writeOneToClear (t : Status) (v : Word) : Status :=
  { t with done := t.done && !v.getLsbD 1, ovr := t.ovr && !v.getLsbD 2 }

/-- The flags at accept (20_memory.md R88). -/
def Status.accepted (t : Status) : Status :=
  { t with busy := true, done := false, ovr := false, err := .ok }

/-- The flags at a completion with a code (30_encoding.md R108, 60_exceptions.md R202). -/
def Status.completed (t : Status) (code : Code) : Status :=
  { t with busy := false, done := true, err := code }

/-- The valid bits take new values. -/
def Status.withValid (t : Status) (rangeValid feistelValid : Bool) : Status :=
  { t with rangeValid := rangeValid, feistelValid := feistelValid }

/-- `irq = STATUS.DONE AND CTRL.IE` at every point (60_exceptions.md R214). -/
def State.irq (s : State) : Bool := s.status.done && s.ie

end Sys2Proof.Machine
end

