-- ==== Sys2Proof/Machine/Operands.lean ====
section
/-! DEFINITION. The operands of the commands and what is derived from them: the latched values (spec/30_encoding.md R103,
spec/10_state.md R60), the geometry of a configuration (spec/41_feistel.md R136, R137, spec/42_range.md R166), and the
domain checks (spec/60_exceptions.md R208). -/

namespace Sys2Proof.Machine

/-- `OPA` at accept (R103). -/
def State.opA (s : State) : Word := s.latch.a

/-- `OPB` at accept (R103); only `CFG_RANGE` reads it. -/
def State.opB (s : State) : Word := s.latch.b

/-- The half width `h` of the configuration at accept (10_state.md R53, R60). -/
def State.halfWidth (s : State) : Nat := s.latch.cfg.geom.h.toNat

/-- The round count `r` of the configuration at accept (10_state.md R54, R60). -/
def State.roundCount (s : State) : Nat := s.latch.cfg.geom.rounds.toNat

/-- The smallest `n` with `v < 2^n`; `bitlen 0 = 0` (00_scope.md section 4). For a 64-bit value it is at most 64. -/
def bitlen (v : Word) : Nat := ((List.range 65).find? fun n => decide (v.toNat < 2 ^ n)).getD 64

/-- `h = floor((w + 1) / 2)` (41_feistel.md R136, following 90_conflicts.md C1). -/
def halfWidthOf (w : Nat) : Nat := (w + 1) / 2

/-- `2^h - 1` (41_feistel.md R137). -/
def halfMaskOf (h : Nat) : Word := BitVec.ofNat 64 (2 ^ h - 1)

/-- The registers of the Feistel configuration for width `w` and round count `r` (41_feistel.md R135 to R137), beside a
range's `min` and `size` (42_range.md R165). -/
def configFor (min size : Word) (w r : Nat) : CfgRegs :=
  { min := min, size := size,
    geom := { w := BitVec.ofNat 7 w, h := BitVec.ofNat 6 (halfWidthOf w), rounds := BitVec.ofNat 8 r },
    halfMask := halfMaskOf (halfWidthOf w) }

/-- The size of the Feistel domain `D = [0, 2^(2h))` (41_feistel.md R138). -/
def domainSize (h : Nat) : Nat := 2 ^ (2 * h)

/-- The operand is in the Feistel domain of the latched configuration (41_feistel.md R147). -/
def State.inFeistelDomain (s : State) : Bool := s.opA.toNat < domainSize s.halfWidth

/-- The operand is in the latched range: not (`i < mn` or `i - mn >= size`) (42_range.md R175). -/
def State.inRange (s : State) : Bool :=
  !(decide (s.opA < s.latch.cfg.min) || decide (s.latch.cfg.size ≤ s.opA - s.latch.cfg.min))

end Sys2Proof.Machine
end

