-- ==== Sys2Proof/Machine/Ops.lean ====
section
/-! DEFINITION. The named operations over the registers: the register map and host reads and writes (spec/10_state.md R32,
spec/20_memory.md R80 to R89), accept, the two completions (spec/30_encoding.md R108, spec/60_exceptions.md R202), and
reset (spec/70_reset_and_hazards.md R230, R232). -/

namespace Sys2Proof.Machine

/-- The sixteen register places of the window (10_state.md R32); `reserved k` is offset `0x60 + 8k` (R58). -/
inductive Reg where
  | ctrl
  | status
  | cmd
  | opa
  | opb
  | result
  | iterCount
  | cfgMin
  | cfgSize
  | cfgGeom
  | cfgHalfMask
  | id
  | reserved (k : Fin 4)
deriving DecidableEq, Repr

/-- The offset of a register in the window (10_state.md R32). -/
def Reg.offset : Reg → BitVec 7
  | .ctrl => 0x00#7
  | .status => 0x08#7
  | .cmd => 0x10#7
  | .opa => 0x18#7
  | .opb => 0x20#7
  | .result => 0x28#7
  | .iterCount => 0x30#7
  | .cfgMin => 0x38#7
  | .cfgSize => 0x40#7
  | .cfgGeom => 0x48#7
  | .cfgHalfMask => 0x50#7
  | .id => 0x58#7
  | .reserved k => BitVec.ofNat 7 (0x60 + 8 * k.val)

/-- The register at an offset that is a multiple of 8 (20_memory.md R81); none at any other offset (R82). -/
def regAt (offset : BitVec 7) : Option Reg :=
  match offset.toNat with
  | 0x00 => some .ctrl
  | 0x08 => some .status
  | 0x10 => some .cmd
  | 0x18 => some .opa
  | 0x20 => some .opb
  | 0x28 => some .result
  | 0x30 => some .iterCount
  | 0x38 => some .cfgMin
  | 0x40 => some .cfgSize
  | 0x48 => some .cfgGeom
  | 0x50 => some .cfgHalfMask
  | 0x58 => some .id
  | 0x60 => some (.reserved 0)
  | 0x68 => some (.reserved 1)
  | 0x70 => some (.reserved 2)
  | 0x78 => some (.reserved 3)
  | _ => none

/-- The register a defined access moves: 64 bits at a multiple of 8 (20_memory.md R81); none for any other access (R82). -/
def accessed (offset : BitVec 7) (widthBits : Nat) : Option Reg :=
  if widthBits = 64 then regAt offset else none

/-- The bus address of an offset of the window (20_memory.md R80). -/
def busAddress (P : Params) (offset : BitVec 7) : Nat := P.fpeBase + offset.toNat

/-- The offset a bus address has in the window; none outside it, where the address is the platform's (20_memory.md R80;
log 13). -/
def windowOffset (P : Params) (addr : Nat) : Option (BitVec 7) :=
  if P.fpeBase ≤ addr ∧ addr < P.fpeBase + 0x80 then some (BitVec.ofNat 7 (addr - P.fpeBase)) else none

/-- What a host read of a register returns (20_memory.md R84), reserved bits 0 (10_state.md R33). -/
def readReg (P : Params) (r : Reg) (s : State) : Word :=
  match r with
  | .ctrl => ctrlWord s.ie
  | .status => s.status.toWord
  | .cmd => s.cmdLast
  | .opa => s.opa
  | .opb => s.opb
  | .result => s.result
  | .iterCount => s.iterCount
  | .cfgMin => s.cfg.min
  | .cfgSize => s.cfg.size
  | .cfgGeom => s.cfg.geom.toWord
  | .cfgHalfMask => s.cfg.halfMask
  | .id => idWord P
  | .reserved _ => 0#64

/-- Accept of a command word (20_memory.md R88): it is not decoded here. -/
def accept (v : Word) (s : State) : State :=
  { s with
    cmdLast := v
    latch := { cmd := v, a := s.opa, b := s.opb, cfg := s.cfg, rangeValid := s.status.rangeValid,
               feistelValid := s.status.feistelValid }
    status := s.status.accepted }

/-- Overrun: the write is ignored but for `OVR` (20_memory.md R89). -/
def overrun (s : State) : State := { s with status := { s.status with ovr := true } }

/-- What a host write of `v` to a register does, and nothing else (20_memory.md R85). -/
def writeReg (r : Reg) (v : Word) (s : State) : State :=
  match r with
  | .ctrl => { s with ie := v.getLsbD 0 }
  | .status => { s with status := s.status.writeOneToClear v }
  | .cmd => if s.status.busy then overrun s else accept v s
  | .opa => { s with opa := v }
  | .opb => { s with opb := v }
  | .result => s
  | .iterCount => s
  | .cfgMin => s
  | .cfgSize => s
  | .cfgGeom => s
  | .cfgHalfMask => s
  | .id => s
  | .reserved _ => s

/-- The part the two completions share: code, iteration count, `BUSY <- 0`, `DONE <- 1`, in one step. -/
def complete (code : Code) (n : Word) (s : State) : State :=
  { s with iterCount := n, status := s.status.completed code }

/-- `complete_ok(writes, n)` on a state in which the writes are made (30_encoding.md R108). -/
def completeOk (n : Word) (s : State) : State := complete .ok n s

/-- `raise Error(CODE)`, the block's one exception entry (60_exceptions.md R202): a configuration error also clears both
valid bits (R209). Nothing is saved and there is no return (R215, R216). -/
def raiseError (code : Code) (s : State) : State :=
  complete code 0#64 (if code.isConfigError then { s with status := s.status.withValid false false } else s)

/-- The register writes of a successful configuration command (41_feistel.md R146, 42_range.md R168). -/
def setConfig (c : CfgRegs) (rangeValid feistelValid : Bool) (s : State) : State :=
  { s with cfg := c, status := s.status.withValid rangeValid feistelValid }

/-- The register write of a successful encode or decode (10_state.md R48). -/
def setResult (v : Word) (s : State) : State := { s with result := v }

/-- The level of `rst_n` (70_reset_and_hazards.md R230, R232): asserted, every register takes its reset value and a command
in flight is discarded; the same when it is deasserted; a deasserted level that stays deasserted changes nothing (log 15).
What is still to reach the block is not the block's. -/
def driveReset (level : Bool) (s : State) : State :=
  if level && s.rstN then s else { State.reset with rstN := level, inputs := s.inputs }

end Sys2Proof.Machine
end

