-- ==== Sys2Proof/Machine/Mixer.lean ====
section
/-! DEFINITION. `round_function_mixer` (spec/40_round_function.md). -/

namespace Sys2Proof.Machine

/-- A right xor-shift step `s ^ (s >> k)` (R121; the form is the spec's general knowledge, G1, log 16). -/
def xorShiftRight (k : Nat) (s : Word) : Word := s ^^^ (s >>> k)

/-- A left xor-shift step `s ^ shl64(s, k)` (R121). -/
def xorShiftLeft (k : Nat) (s : Word) : Word := s ^^^ (s <<< k)

/-- The last four lines of R121: `g` of R122. -/
def mixOfSum (P : Params) (s : Word) : Word :=
  xorShiftRight P.mixS3 (xorShiftLeft P.mixS2 (xorShiftRight P.mixS1 s)) * P.mixM

/-- `mix(a, b)` (R121): the sum modulo 2^64, three xor-shifts, the product modulo 2^64. -/
def mix (P : Params) (a b : Word) : Word := mixOfSum P (a + b)

end Sys2Proof.Machine
end

