-- ==== Sys2Proof/Machine/Feistel.lean ====
section
/-! DEFINITION. The Feistel network core and the three commands that reach it directly (spec/41_feistel.md). -/

namespace Sys2Proof.Machine

/-- The two halves of a block during the rounds. -/
structure Halves where
  left : Word
  right : Word
deriving DecidableEq, Repr

/-- `msg >> h` and `msg & mask` (R140). -/
def splitBlock (h : Nat) (msg : Word) : Halves := { left := msg >>> h, right := msg &&& halfMaskOf h }

/-- `(left << h) | right` (R140); nothing is lost for halves below `2^h` and `h <= 32`, and the result is below `2^(2h)`
(R144). -/
def joinHalves (h : Nat) (p : Halves) : Word := (p.left <<< h) ||| p.right

/-- `mix(v, RC[i]) & mask`: the round value of round `i` (R140); the mask keeps it below `2^h`, so the XOR that makes a
round's new half stays below `2^h` too (R144). -/
def roundValue (P : Params) (h i : Nat) (v : Word) : Word := mix P v (P.rc i) &&& halfMaskOf h

/-- Round `i` forward: `(left, right) <- (right, left ^ round_value)` (R140). -/
def encRound (P : Params) (h i : Nat) (p : Halves) : Halves :=
  { left := p.right, right := p.left ^^^ roundValue P h i p.right }

/-- Round `i` undone: `(left, right) <- (right ^ (mix(left, RC[i]) & mask), left)` (R141). -/
def decRound (P : Params) (h i : Nat) (p : Halves) : Halves :=
  { left := p.right ^^^ roundValue P h i p.left, right := p.left }

/-- `for i in 0 .. r-1` (R140): round `r - 1` runs last. -/
def encRounds (P : Params) (h : Nat) : Nat → Halves → Halves
  | 0, p => p
  | r + 1, p => encRound P h r (encRounds P h r p)

/-- `for i in r-1 downto 0` (R141): round `r - 1` is undone first. -/
def decRounds (P : Params) (h : Nat) : Nat → Halves → Halves
  | 0, p => p
  | r + 1, p => decRounds P h r (decRound P h r p)

/-- `feistel_enc(msg, h, r)` (R140). -/
def feistelEnc (P : Params) (h r : Nat) (msg : Word) : Word := joinHalves h (encRounds P h r (splitBlock h msg))

/-- `feistel_dec(code, h, r)` (R141). -/
def feistelDec (P : Params) (h r : Nat) (code : Word) : Word := joinHalves h (decRounds P h r (splitBlock h code))

/-- `CFG_FEISTEL` (R146): the checks in the order of 60_exceptions.md R211, then the configuration of R135 to R137. -/
def cfgFeistel (P : Params) (rounds : Nat) (s : State) : Host.Outcome State Fault Refusal :=
  .next <|
    if Config.maxBits < s.opA.toNat then raiseError .bitsTooWide s
    else if P.numRc < rounds then raiseError .roundsExceedTable s
    else completeOk 0#64 (setConfig (configFor 0#64 0#64 s.opA.toNat rounds) false true s)

/-- The shape `FEISTEL_ENC` and `FEISTEL_DEC` share (R147, R148): the checks in order, then one application of `f`. -/
def feistelCommand (f : Nat → Nat → Word → Word) (s : State) : Host.Outcome State Fault Refusal :=
  .next <|
    if s.latch.feistelValid = false then raiseError .notConfigured s
    else if s.inFeistelDomain = false then raiseError .outOfDomain s
    else completeOk 1#64 (setResult (f s.halfWidth s.roundCount s.opA) s)

/-- The meaning of `CFG_FEISTEL` (R146). -/
def execCfgFeistel (rounds : Nat) (s : State) : Host.Outcome State Fault Refusal := cfgFeistel Config.params rounds s

/-- The meaning of `FEISTEL_ENC` (R147). -/
def execFeistelEnc (s : State) : Host.Outcome State Fault Refusal := feistelCommand (feistelEnc Config.params) s

/-- The meaning of `FEISTEL_DEC` (R148). -/
def execFeistelDec (s : State) : Host.Outcome State Fault Refusal := feistelCommand (feistelDec Config.params) s

end Sys2Proof.Machine
end

