-- ==== Sys2Proof/Machine/Range.lean ====
section
/-! DEFINITION. The range adapter, the cycle walker and the three range commands (spec/42_range.md). -/

namespace Sys2Proof.Machine

/-- `repeat x <- f(x); n <- n + 1 until x < size` (R169, R170): the value and the number of applications. The loop has no
iteration limit (R172); the fuel only makes the definition structural, and callers give `2^(2h)`, which R171's bound
`2^(2h) - size + 1` never exceeds for `size >= 1`. `none` means the fuel ran out (log 5). -/
def walk (f : Word → Word) (size : Word) : Nat → Word → Option (Word × Nat)
  | 0, _ => none
  | fuel + 1, x => if f x < size then some (f x, 1) else (walk f size fuel (f x)).map fun p => (p.1, p.2 + 1)

/-- `walk_enc(x0, size, h, r)` (R169). -/
def walkEnc (P : Params) (h r : Nat) (size x0 : Word) : Option (Word × Nat) :=
  walk (feistelEnc P h r) size (domainSize h) x0

/-- `walk_dec(y0, size, h, r)` (R170). -/
def walkDec (P : Params) (h r : Nat) (size y0 : Word) : Option (Word × Nat) :=
  walk (feistelDec P h r) size (domainSize h) y0

/-- `bitlen(size - 1)` (R166), for `size >= 1`. -/
def rangeWidth (size : Word) : Nat := bitlen (size - 1#64)

/-- `CFG_RANGE` (R168): the checks in the order of 60_exceptions.md R211, then the configuration of R165 and R166. -/
def cfgRange (P : Params) (rounds : Nat) (s : State) : Host.Outcome State Fault Refusal :=
  .next <|
    if s.opB ≤ s.opA then raiseError .rangeEmpty s
    else if P.numRc < rounds then raiseError .roundsExceedTable s
    else completeOk 0#64
      (setConfig (configFor s.opA (s.opB - s.opA) (rangeWidth (s.opB - s.opA)) rounds) true true s)

/-- The last two lines of R175 and R176: `RESULT <- x + mn`, `ITER_COUNT <- n`. -/
def finishWalk (min : Word) (walked : Option (Word × Nat)) (s : State) : Host.Outcome State Fault Refusal :=
  match walked with
  | some (x, n) => .next (completeOk (BitVec.ofNat 64 n) (setResult (x + min) s))
  | none => .fault .walkUnending

/-- The shape `RANGE_ENC` and `RANGE_DEC` share (R175, R176): the checks in order, then the walk `w` from
`OPA - CFG_MIN`. -/
def rangeCommand (w : Nat → Nat → Word → Word → Option (Word × Nat)) (s : State) :
    Host.Outcome State Fault Refusal :=
  if s.latch.rangeValid = false then .next (raiseError .notConfigured s)
  else if s.inRange = false then .next (raiseError .outOfDomain s)
  else finishWalk s.latch.cfg.min (w s.halfWidth s.roundCount s.latch.cfg.size (s.opA - s.latch.cfg.min)) s

/-- The meaning of `CFG_RANGE` (R168). -/
def execCfgRange (rounds : Nat) (s : State) : Host.Outcome State Fault Refusal := cfgRange Config.params rounds s

/-- The meaning of `RANGE_ENC` (R175). -/
def execRangeEnc (s : State) : Host.Outcome State Fault Refusal := rangeCommand (walkEnc Config.params) s

/-- The meaning of `RANGE_DEC` (R176). -/
def execRangeDec (s : State) : Host.Outcome State Fault Refusal := rangeCommand (walkDec Config.params) s

end Sys2Proof.Machine
end

