-- ==== Sys2Proof/Machine/Dispatch.lean ====
section
/-! DEFINITION. One arm per command: the completion of the command in flight (spec/30_encoding.md R107). -/

namespace Sys2Proof.Machine

def exec (i : Instr) (s : State) : Host.Outcome State Fault Refusal :=
  match i with
  | .cfgRange rounds => Sys2Proof.Machine.execCfgRange rounds s
  | .cfgFeistel rounds => Sys2Proof.Machine.execCfgFeistel rounds s
  | .rangeEnc => Sys2Proof.Machine.execRangeEnc s
  | .rangeDec => Sys2Proof.Machine.execRangeDec s
  | .feistelEnc => Sys2Proof.Machine.execFeistelEnc s
  | .feistelDec => Sys2Proof.Machine.execFeistelDec s

end Sys2Proof.Machine
end

