-- ==== Sys2Proof/Machine/Engine.lean ====
section
/-! DEFINITION. The steps of the agents: the engine's turn, host reads and writes at the slave port, and the reset input
(spec/10_state.md R31, spec/20_memory.md R80 to R90, spec/30_encoding.md R107, spec/70_reset_and_hazards.md R230). -/

namespace Sys2Proof.Machine

/-- The completion of the accepted command word (30_encoding.md R107): a legal word runs, an illegal one ends in
`ILLEGAL_CMD` (60_exceptions.md R203). -/
def completeCommand (cmd : Word) (s : State) : Host.Outcome State Fault Refusal :=
  match decode cmd with
  | .ok i => exec i s
  | .error _ => .next (raiseError .illegalCmd s)

/-- The engine's turn: it completes the command in flight; idle, or while `rst_n` is asserted, it does nothing (log 3). -/
def engineTurn (s : State) : Host.Outcome State Fault Refusal :=
  if s.rstN && s.status.busy then completeCommand s.latch.cmd s else .next s

/-- A host read at the slave port (20_memory.md R81, R82, R84; 70_reset_and_hazards.md R230): the register is unchanged,
its value is the port's answer. In reset an access of any offset and width is `accessInReset` (log 12). -/
def hostRead (P : Params) (offset : BitVec 7) (widthBits : Nat) (s : State) : Host.Outcome State Fault Refusal :=
  if s.rstN then
    match accessed offset widthBits with
    | some r => .next { s with reply := .readData (readReg P r s) }
    | none => .fault .busError
  else .fault .accessInReset

/-- A host write at the slave port (20_memory.md R81, R82, R85; 70_reset_and_hazards.md R230; log 12). -/
def hostWrite (offset : BitVec 7) (widthBits : Nat) (data : Word) (s : State) : Host.Outcome State Fault Refusal :=
  if s.rstN then
    match accessed offset widthBits with
    | some r => .next { writeReg r data s with reply := .written }
    | none => .fault .busError
  else .fault .accessInReset

/-- One input reaches the block. -/
def applyInput (e : Input) (s : State) : Host.Outcome State Fault Refusal :=
  match e with
  | .read offset widthBits => hostRead Config.params offset widthBits s
  | .write offset widthBits data => hostWrite offset widthBits data s
  | .engine => engineTurn s
  | .rst level => .next (driveReset level s)

/-- The next input in the order of 20_memory.md R90 reaches the block; with none left the engine has its turn, so that an
accepted command completes (70_reset_and_hazards.md R243; log 2). -/
def takeInput (s : State) : Host.Outcome State Fault Refusal :=
  match s.inputs with
  | [] => engineTurn s
  | e :: rest => applyInput e { s with inputs := rest }

/-- A command word `v` placed so that the very next step runs it: `rst_n` deasserted, the word accepted as a host write of
`CMD` to an idle block is (20_memory.md R88), and the engine's turn next (log 17). -/
def placeCommand (v : Word) (s : State) : State :=
  { accept v s with rstN := true, inputs := .engine :: s.inputs }

end Sys2Proof.Machine
end

