-- ==== Sys2Proof/Machine/Step.lean ====
section
/-! DEFINITION. The step of the machine, and a command placed where the step takes its next one. -/

namespace Sys2Proof.Machine

/-- One step: the next host access, engine completion or reset level in the order of spec/20_memory.md R90. -/
def step (s : State) : Host.Outcome State Fault Refusal := takeInput s

/-- `s` with the command word of a table row accepted and the engine's turn next (log 17). -/
def State.withFetchWord (s : State) (nbits w : Nat) : State := placeCommand (tableWord nbits w) s

end Sys2Proof.Machine
end

