-- ==== Sys2Proof/Machine/HostSyntax.lean ====
section
/-! DEFINITION. The host's side of the interface: host operations and pseudo-instructions (spec/30_encoding.md R109, R110),
and bus accesses by address (spec/20_memory.md R80). -/

namespace Sys2Proof.Machine

/-- The host accesses of R109. -/
inductive HostOp where
  | wr (r : Reg) (v : Word)
  | rd (r : Reg)
  | wait
deriving DecidableEq, Repr

/-- The pseudo-instructions of R110. `prange` may omit its round count; the results a pseudo-instruction names
(`-> y`, `-> s`) are the port's answers to its reads. -/
inductive Pseudo where
  | prange (min max : Word) (rounds : Option Nat)
  | pfeistel (bits : Word) (rounds : Nat)
  | penc (v : Word)
  | pdec (v : Word)
  | pfenc (v : Word)
  | pfdec (v : Word)
  | pcheck
deriving DecidableEq, Repr

/-- `wr CMD, <command>`; nothing when the assembler refuses the command (R109). -/
def wrCmd (i : Instr) : Option HostOp := (assemble i).map (HostOp.wr .cmd)

/-- `wr OPA, v; wr CMD, <command>; wait; rd RESULT -> y` (R110). -/
def computeOps (v : Word) (i : Instr) : Option (List HostOp) :=
  (wrCmd i).map fun c => [.wr .opa v, c, .wait, .rd .result]

/-- The expansions of R110; nothing when the assembler refuses the round count. -/
def Pseudo.expand : Pseudo → Option (List HostOp)
  | .prange min max rounds =>
    (wrCmd (.cfgRange (rounds.getD Config.defaultRounds))).map fun c => [.wr .opa min, .wr .opb max, c, .wait]
  | .pfeistel bits rounds => (wrCmd (.cfgFeistel rounds)).map fun c => [.wr .opa bits, c, .wait]
  | .penc v => computeOps v .rangeEnc
  | .pdec v => computeOps v .rangeDec
  | .pfenc v => computeOps v .feistelEnc
  | .pfdec v => computeOps v .feistelDec
  | .pcheck => some [.rd .status]

/-- A 64-bit read of a register. -/
def readOf (r : Reg) : Input := .read r.offset 64

/-- A 64-bit write of a register. -/
def writeOf (r : Reg) (v : Word) : Input := .write r.offset 64 v

/-- One admitted order of what reaches the block for a host operation. For `wait` (read `STATUS` until `BUSY` is clear)
these are `polls` reads, the engine's turn, and the read that sees `BUSY = 0`; every number of polls is admitted, and other
placements of the engine's turn are other lists (log 20). -/
def HostOp.inputs (polls : Nat) : HostOp → List Input
  | .wr r v => [writeOf r v]
  | .rd r => [readOf r]
  | .wait => List.replicate polls (readOf .status) ++ [.engine, readOf .status]

/-- The inputs of a list of host operations, in order. -/
def inputsOf (polls : Nat) (ops : List HostOp) : List Input := ops.flatMap (HostOp.inputs polls)

/-- A host read at a bus address as it reaches the block; nothing outside the window, where the access is the platform's
(20_memory.md R80; log 13). -/
def busRead (P : Params) (addr widthBits : Nat) : Option Input :=
  (windowOffset P addr).map fun off => .read off widthBits

/-- A host write at a bus address as it reaches the block. -/
def busWrite (P : Params) (addr widthBits : Nat) (data : Word) : Option Input :=
  (windowOffset P addr).map fun off => .write off widthBits data

end Sys2Proof.Machine
end

