-- ==== Sys2Proof/Safety.lean ====
section
/-! DEFINITION. What the claims use: the invariants of the configuration registers (spec/10_state.md R62), the invariant of
the whole state, first return to a range (spec/42_range.md R169), and legal command words (spec/30_encoding.md R104). -/

namespace Sys2Proof.Machine

/-- The invariants of 10_state.md R62, for the configuration registers with their valid bits. -/
def CfgRegs.Consistent (P : Params) (c : CfgRegs) (rangeValid feistelValid : Bool) : Prop :=
  (c.geom.h.toNat = (c.geom.w.toNat + 1) / 2 ∧ c.halfMask.toNat = 2 ^ c.geom.h.toNat - 1) ∧
  (feistelValid = true → c.geom.w.toNat ≤ 64 ∧ c.geom.rounds.toNat ≤ P.numRc) ∧
  (rangeValid = true → feistelValid = true ∧ 1 ≤ c.size.toNat ∧ c.min.toNat + c.size.toNat ≤ 2 ^ 64 - 1 ∧
    c.geom.w.toNat = bitlen (c.size - 1#64))

/-- R62 for the registers as they stand. -/
def State.CfgInv (P : Params) (s : State) : Prop :=
  s.cfg.Consistent P s.status.rangeValid s.status.feistelValid

/-- R62 for the copies of the command in flight. -/
def State.LatchInv (P : Params) (s : State) : Prop :=
  s.latch.cfg.Consistent P s.latch.rangeValid s.latch.feistelValid

/-- While a command is in flight the copies are the registers' values (only a completion or reset writes those), `DONE` is
clear and `ERR` reads 0 (20_memory.md R85, R88, 70_reset_and_hazards.md R238). -/
def State.InFlight (s : State) : Prop :=
  s.latch.cmd = s.cmdLast ∧ s.latch.cfg = s.cfg ∧ s.latch.rangeValid = s.status.rangeValid ∧
  s.latch.feistelValid = s.status.feistelValid ∧ s.status.done = false ∧ s.status.err = .ok

/-- Every register at its reset value with `rst_n` at a level, whatever is still to reach the block
(70_reset_and_hazards.md R230). -/
def State.AtReset (level : Bool) (s : State) : Prop :=
  s = { State.reset with rstN := level, inputs := s.inputs }

/-- The invariant of the whole state. -/
def State.Inv (P : Params) (s : State) : Prop :=
  s.CfgInv P ∧ (s.status.busy = true → s.InFlight) ∧ (s.rstN = false → s.AtReset false)

/-- `n` applications of `f` are the first to bring `x` below `size`, and they bring it to `y` (42_range.md R169). -/
def FirstReturn (f : Word → Word) (size x y : Word) (n : Nat) : Prop :=
  1 ≤ n ∧ f^[n] x = y ∧ y < size ∧ ∀ k, 1 ≤ k → k < n → ¬ f^[k] x < size

/-- The Feistel domain `D = [0, 2^(2h))` (41_feistel.md R138). -/
def feistelDomain (h : Nat) : Set Word := {x | x.toNat < 2 ^ (2 * h)}

/-- The legal command words of 30_encoding.md R104, bit by bit. -/
def LegalWord (w : Word) : Prop :=
  1 ≤ (w.extractLsb' 0 4).toNat ∧ (w.extractLsb' 0 4).toNat ≤ 6 ∧ w.extractLsb' 4 4 = 0#4 ∧
  w.extractLsb' 16 48 = 0#48 ∧ (3 ≤ (w.extractLsb' 0 4).toNat → w.extractLsb' 8 8 = 0#8)

/-- The inputs that are host accesses. -/
def Input.isHostAccess : Input → Bool
  | .read _ _ => true
  | .write _ _ _ => true
  | .engine => false
  | .rst _ => false

/-- The inputs that are defined host accesses: 64 bits at a multiple of 8 (20_memory.md R81). -/
def Input.isDefinedAccess : Input → Bool
  | .read offset widthBits => widthBits == 64 && offset.toNat % 8 == 0
  | .write offset widthBits _ => widthBits == 64 && offset.toNat % 8 == 0
  | .engine => false
  | .rst _ => false

/-- The bits of `STATUS` (10_state.md section 4), every reserved bit 0, with the code numbers of 60_exceptions.md R201. -/
def StatusBits (t : Status) (v : Word) : Prop :=
  v.getLsbD 0 = t.busy ∧ v.getLsbD 1 = t.done ∧ v.getLsbD 2 = t.ovr ∧ v.getLsbD 3 = t.rangeValid ∧
  v.getLsbD 4 = t.feistelValid ∧ v.getLsbD 5 = false ∧ v.getLsbD 6 = false ∧ v.getLsbD 7 = false ∧
  v.toNat / 2 ^ 8 =
    match t.err with
    | .ok => 0
    | .illegalCmd => 1
    | .rangeEmpty => 2
    | .roundsExceedTable => 3
    | .bitsTooWide => 4
    | .notConfigured => 5
    | .outOfDomain => 6

/-- The bits of `CFG_GEOM` (10_state.md section 7): `W` at [6:0], `H` at [13:8], `ROUNDS` at [23:16], every other bit 0. -/
def GeomBits (g : Geom) (v : Word) : Prop :=
  v.toNat = g.w.toNat + g.h.toNat * 2 ^ 8 + g.rounds.toNat * 2 ^ 16

end Sys2Proof.Machine

namespace Sys2Proof

/-- The commands that compute a value. -/
def Instr.isCompute : Instr → Bool
  | .cfgRange _ => false
  | .cfgFeistel _ => false
  | .rangeEnc => true
  | .rangeDec => true
  | .feistelEnc => true
  | .feistelDec => true

end Sys2Proof
end

