-- ==== Sys2Proof/Laws/State.lean ====
section
/-! SUPPORT. One lemma per field per named update of the state, true by rfl, so that no later proof unfolds a record
update. -/

namespace Sys2Proof.Machine

variable (s : State)

@[simp] theorem accept_ie (v : Word) : (accept v s).ie = s.ie := rfl
@[simp] theorem accept_status (v : Word) : (accept v s).status = s.status.accepted := rfl
@[simp] theorem accept_cmdLast (v : Word) : (accept v s).cmdLast = v := rfl
@[simp] theorem accept_opa (v : Word) : (accept v s).opa = s.opa := rfl
@[simp] theorem accept_opb (v : Word) : (accept v s).opb = s.opb := rfl
@[simp] theorem accept_result (v : Word) : (accept v s).result = s.result := rfl
@[simp] theorem accept_iterCount (v : Word) : (accept v s).iterCount = s.iterCount := rfl
@[simp] theorem accept_cfg (v : Word) : (accept v s).cfg = s.cfg := rfl
@[simp] theorem accept_latch (v : Word) : (accept v s).latch = { cmd := v, a := s.opa, b := s.opb, cfg := s.cfg, rangeValid := s.status.rangeValid, feistelValid := s.status.feistelValid } := rfl
@[simp] theorem accept_rstN (v : Word) : (accept v s).rstN = s.rstN := rfl
@[simp] theorem accept_reply (v : Word) : (accept v s).reply = s.reply := rfl
@[simp] theorem accept_inputs (v : Word) : (accept v s).inputs = s.inputs := rfl

@[simp] theorem overrun_ie : (overrun s).ie = s.ie := rfl
@[simp] theorem overrun_status : (overrun s).status = { s.status with ovr := true } := rfl
@[simp] theorem overrun_cmdLast : (overrun s).cmdLast = s.cmdLast := rfl
@[simp] theorem overrun_opa : (overrun s).opa = s.opa := rfl
@[simp] theorem overrun_opb : (overrun s).opb = s.opb := rfl
@[simp] theorem overrun_result : (overrun s).result = s.result := rfl
@[simp] theorem overrun_iterCount : (overrun s).iterCount = s.iterCount := rfl
@[simp] theorem overrun_cfg : (overrun s).cfg = s.cfg := rfl
@[simp] theorem overrun_latch : (overrun s).latch = s.latch := rfl
@[simp] theorem overrun_rstN : (overrun s).rstN = s.rstN := rfl
@[simp] theorem overrun_reply : (overrun s).reply = s.reply := rfl
@[simp] theorem overrun_inputs : (overrun s).inputs = s.inputs := rfl

@[simp] theorem complete_ie (code : Code) (n : Word) : (complete code n s).ie = s.ie := rfl
@[simp] theorem complete_status (code : Code) (n : Word) : (complete code n s).status = s.status.completed code := rfl
@[simp] theorem complete_cmdLast (code : Code) (n : Word) : (complete code n s).cmdLast = s.cmdLast := rfl
@[simp] theorem complete_opa (code : Code) (n : Word) : (complete code n s).opa = s.opa := rfl
@[simp] theorem complete_opb (code : Code) (n : Word) : (complete code n s).opb = s.opb := rfl
@[simp] theorem complete_result (code : Code) (n : Word) : (complete code n s).result = s.result := rfl
@[simp] theorem complete_iterCount (code : Code) (n : Word) : (complete code n s).iterCount = n := rfl
@[simp] theorem complete_cfg (code : Code) (n : Word) : (complete code n s).cfg = s.cfg := rfl
@[simp] theorem complete_latch (code : Code) (n : Word) : (complete code n s).latch = s.latch := rfl
@[simp] theorem complete_rstN (code : Code) (n : Word) : (complete code n s).rstN = s.rstN := rfl
@[simp] theorem complete_reply (code : Code) (n : Word) : (complete code n s).reply = s.reply := rfl
@[simp] theorem complete_inputs (code : Code) (n : Word) : (complete code n s).inputs = s.inputs := rfl

@[simp] theorem completeOk_ie (n : Word) : (completeOk n s).ie = s.ie := rfl
@[simp] theorem completeOk_status (n : Word) : (completeOk n s).status = s.status.completed .ok := rfl
@[simp] theorem completeOk_cmdLast (n : Word) : (completeOk n s).cmdLast = s.cmdLast := rfl
@[simp] theorem completeOk_opa (n : Word) : (completeOk n s).opa = s.opa := rfl
@[simp] theorem completeOk_opb (n : Word) : (completeOk n s).opb = s.opb := rfl
@[simp] theorem completeOk_result (n : Word) : (completeOk n s).result = s.result := rfl
@[simp] theorem completeOk_iterCount (n : Word) : (completeOk n s).iterCount = n := rfl
@[simp] theorem completeOk_cfg (n : Word) : (completeOk n s).cfg = s.cfg := rfl
@[simp] theorem completeOk_latch (n : Word) : (completeOk n s).latch = s.latch := rfl
@[simp] theorem completeOk_rstN (n : Word) : (completeOk n s).rstN = s.rstN := rfl
@[simp] theorem completeOk_reply (n : Word) : (completeOk n s).reply = s.reply := rfl
@[simp] theorem completeOk_inputs (n : Word) : (completeOk n s).inputs = s.inputs := rfl

@[simp] theorem setConfig_ie (c : CfgRegs) (rv fv : Bool) : (setConfig c rv fv s).ie = s.ie := rfl
@[simp] theorem setConfig_status (c : CfgRegs) (rv fv : Bool) : (setConfig c rv fv s).status = s.status.withValid rv fv := rfl
@[simp] theorem setConfig_cmdLast (c : CfgRegs) (rv fv : Bool) : (setConfig c rv fv s).cmdLast = s.cmdLast := rfl
@[simp] theorem setConfig_opa (c : CfgRegs) (rv fv : Bool) : (setConfig c rv fv s).opa = s.opa := rfl
@[simp] theorem setConfig_opb (c : CfgRegs) (rv fv : Bool) : (setConfig c rv fv s).opb = s.opb := rfl
@[simp] theorem setConfig_result (c : CfgRegs) (rv fv : Bool) : (setConfig c rv fv s).result = s.result := rfl
@[simp] theorem setConfig_iterCount (c : CfgRegs) (rv fv : Bool) : (setConfig c rv fv s).iterCount = s.iterCount := rfl
@[simp] theorem setConfig_cfg (c : CfgRegs) (rv fv : Bool) : (setConfig c rv fv s).cfg = c := rfl
@[simp] theorem setConfig_latch (c : CfgRegs) (rv fv : Bool) : (setConfig c rv fv s).latch = s.latch := rfl
@[simp] theorem setConfig_rstN (c : CfgRegs) (rv fv : Bool) : (setConfig c rv fv s).rstN = s.rstN := rfl
@[simp] theorem setConfig_reply (c : CfgRegs) (rv fv : Bool) : (setConfig c rv fv s).reply = s.reply := rfl
@[simp] theorem setConfig_inputs (c : CfgRegs) (rv fv : Bool) : (setConfig c rv fv s).inputs = s.inputs := rfl

@[simp] theorem setResult_ie (v : Word) : (setResult v s).ie = s.ie := rfl
@[simp] theorem setResult_status (v : Word) : (setResult v s).status = s.status := rfl
@[simp] theorem setResult_cmdLast (v : Word) : (setResult v s).cmdLast = s.cmdLast := rfl
@[simp] theorem setResult_opa (v : Word) : (setResult v s).opa = s.opa := rfl
@[simp] theorem setResult_opb (v : Word) : (setResult v s).opb = s.opb := rfl
@[simp] theorem setResult_result (v : Word) : (setResult v s).result = v := rfl
@[simp] theorem setResult_iterCount (v : Word) : (setResult v s).iterCount = s.iterCount := rfl
@[simp] theorem setResult_cfg (v : Word) : (setResult v s).cfg = s.cfg := rfl
@[simp] theorem setResult_latch (v : Word) : (setResult v s).latch = s.latch := rfl
@[simp] theorem setResult_rstN (v : Word) : (setResult v s).rstN = s.rstN := rfl
@[simp] theorem setResult_reply (v : Word) : (setResult v s).reply = s.reply := rfl
@[simp] theorem setResult_inputs (v : Word) : (setResult v s).inputs = s.inputs := rfl

@[simp] theorem raiseError_ie (code : Code) : (raiseError code s).ie = s.ie := by
  cases code <;> rfl
@[simp] theorem raiseError_status (code : Code) : (raiseError code s).status = (if code.isConfigError then s.status.withValid false false else s.status).completed code := by
  cases code <;> rfl
@[simp] theorem raiseError_cmdLast (code : Code) : (raiseError code s).cmdLast = s.cmdLast := by
  cases code <;> rfl
@[simp] theorem raiseError_opa (code : Code) : (raiseError code s).opa = s.opa := by
  cases code <;> rfl
@[simp] theorem raiseError_opb (code : Code) : (raiseError code s).opb = s.opb := by
  cases code <;> rfl
@[simp] theorem raiseError_result (code : Code) : (raiseError code s).result = s.result := by
  cases code <;> rfl
@[simp] theorem raiseError_iterCount (code : Code) : (raiseError code s).iterCount = 0#64 := by
  cases code <;> rfl
@[simp] theorem raiseError_cfg (code : Code) : (raiseError code s).cfg = s.cfg := by
  cases code <;> rfl
@[simp] theorem raiseError_latch (code : Code) : (raiseError code s).latch = s.latch := by
  cases code <;> rfl
@[simp] theorem raiseError_rstN (code : Code) : (raiseError code s).rstN = s.rstN := by
  cases code <;> rfl
@[simp] theorem raiseError_reply (code : Code) : (raiseError code s).reply = s.reply := by
  cases code <;> rfl
@[simp] theorem raiseError_inputs (code : Code) : (raiseError code s).inputs = s.inputs := by
  cases code <;> rfl

@[simp] theorem Status.completed_busy (t : Status) (code : Code) : (t.completed code).busy = false := rfl
@[simp] theorem Status.completed_done (t : Status) (code : Code) : (t.completed code).done = true := rfl
@[simp] theorem Status.completed_ovr (t : Status) (code : Code) : (t.completed code).ovr = t.ovr := rfl
@[simp] theorem Status.completed_rangeValid (t : Status) (code : Code) : (t.completed code).rangeValid = t.rangeValid := rfl
@[simp] theorem Status.completed_feistelValid (t : Status) (code : Code) : (t.completed code).feistelValid = t.feistelValid := rfl
@[simp] theorem Status.completed_err (t : Status) (code : Code) : (t.completed code).err = code := rfl

@[simp] theorem Status.accepted_busy (t : Status) : (t.accepted).busy = true := rfl
@[simp] theorem Status.accepted_done (t : Status) : (t.accepted).done = false := rfl
@[simp] theorem Status.accepted_ovr (t : Status) : (t.accepted).ovr = false := rfl
@[simp] theorem Status.accepted_rangeValid (t : Status) : (t.accepted).rangeValid = t.rangeValid := rfl
@[simp] theorem Status.accepted_feistelValid (t : Status) : (t.accepted).feistelValid = t.feistelValid := rfl
@[simp] theorem Status.accepted_err (t : Status) : (t.accepted).err = .ok := rfl

@[simp] theorem Status.withValid_busy (t : Status) (rv fv : Bool) : (t.withValid rv fv).busy = t.busy := rfl
@[simp] theorem Status.withValid_done (t : Status) (rv fv : Bool) : (t.withValid rv fv).done = t.done := rfl
@[simp] theorem Status.withValid_ovr (t : Status) (rv fv : Bool) : (t.withValid rv fv).ovr = t.ovr := rfl
@[simp] theorem Status.withValid_rangeValid (t : Status) (rv fv : Bool) : (t.withValid rv fv).rangeValid = rv := rfl
@[simp] theorem Status.withValid_feistelValid (t : Status) (rv fv : Bool) : (t.withValid rv fv).feistelValid = fv := rfl
@[simp] theorem Status.withValid_err (t : Status) (rv fv : Bool) : (t.withValid rv fv).err = t.err := rfl

@[simp] theorem Status.writeOneToClear_busy (t : Status) (v : Word) : (t.writeOneToClear v).busy = t.busy := rfl
@[simp] theorem Status.writeOneToClear_done (t : Status) (v : Word) : (t.writeOneToClear v).done = (t.done && !v.getLsbD 1) := rfl
@[simp] theorem Status.writeOneToClear_ovr (t : Status) (v : Word) : (t.writeOneToClear v).ovr = (t.ovr && !v.getLsbD 2) := rfl
@[simp] theorem Status.writeOneToClear_rangeValid (t : Status) (v : Word) : (t.writeOneToClear v).rangeValid = t.rangeValid := rfl
@[simp] theorem Status.writeOneToClear_feistelValid (t : Status) (v : Word) : (t.writeOneToClear v).feistelValid = t.feistelValid := rfl
@[simp] theorem Status.writeOneToClear_err (t : Status) (v : Word) : (t.writeOneToClear v).err = t.err := rfl

end Sys2Proof.Machine
end

