-- ==== Sys2Proof/Laws/Decode.lean ====
section
/-! SUPPORT. What the fields of an encoded command word are, and what an accepted decode says (spec/30_encoding.md R100,
R106). -/

namespace Sys2Proof

/-- Concatenation in numbers. -/
theorem toNat_append_add {n m : Nat} (x : BitVec n) (y : BitVec m) : (x ++ y).toNat = x.toNat * 2 ^ m + y.toNat := by
  rw [BitVec.toNat_append, ← Nat.shiftLeft_add_eq_or_of_lt y.isLt, Nat.shiftLeft_eq]

/-- A bit of an encoded command word: `OP` below 4, `ROUNDS` from 8 to 15, 0 elsewhere. -/
theorem getLsbD_encode (i : Instr) (k : Nat) :
    (encode i).getLsbD k =
      if k < 4 then i.op.getLsbD k else if 8 ≤ k ∧ k < 16 then i.roundsBits.getLsbD (k - 8) else false := by
  simp only [encode, BitVec.getLsbD_append, BitVec.getLsbD_zero]
  split
  · rfl
  · split
    · rw [if_neg (by omega)]
    · split
      · rw [if_pos (by omega)]; congr 1
      · rw [if_neg (by omega)]

@[simp] theorem opField_encode (i : Instr) : opField (encode i) = i.op := by
  ext k hk; simp [opField, getLsbD_encode, hk, BitVec.getLsbD_eq_getElem]

@[simp] theorem reservedLow_encode (i : Instr) : reservedLow (encode i) = 0#4 := by
  ext k hk
  have h : ¬ (8 ≤ 4 + k) := by omega
  simp [reservedLow, getLsbD_encode, h]

@[simp] theorem roundsField_encode (i : Instr) : roundsField (encode i) = i.roundsBits := by
  ext k hk
  have h : ¬ (8 + k < 4) := by omega
  have h' : 8 + k < 16 := by omega
  simp [roundsField, getLsbD_encode, h, h', hk, BitVec.getLsbD_eq_getElem]

@[simp] theorem reservedHigh_encode (i : Instr) : reservedHigh (encode i) = 0#48 := by
  ext k hk
  have h : ¬ (16 + k < 4) := by omega
  simp [reservedHigh, getLsbD_encode, h]

/-- A word with its reserved fields 0 decodes by its `OP` and `ROUNDS` fields alone. -/
theorem decode_of_reserved (w : Word) (hh : reservedHigh w = 0#48) (hl : reservedLow w = 0#4) :
    decode w = decodeOp (opField w) (roundsField w) := by
  simp [decode, hh, hl]

/-- A word that decodes has its reserved fields 0. -/
theorem reserved_of_decode {w : Word} {i : Instr} (h : decode w = .ok i) :
    reservedHigh w = 0#48 ∧ reservedLow w = 0#4 ∧ decodeOp (opField w) (roundsField w) = .ok i := by
  unfold decode at h
  split at h
  · rename_i hr; exact ⟨hr.1, hr.2, h⟩
  · cases h

/-- A word is the concatenation of its four fields. -/
theorem word_of_fields (w : Word) : w = reservedHigh w ++ roundsField w ++ reservedLow w ++ opField w := by
  apply BitVec.eq_of_getLsbD_eq
  intro k hk
  simp only [reservedHigh, roundsField, reservedLow, opField, BitVec.getLsbD_append, BitVec.getLsbD_extractLsb']
  grind

/-- A round count fits the field exactly below 256 (30_encoding.md R102). -/
theorem roundsFit_iff (r : Nat) : roundsFit r = true ↔ r < 256 :=
  ⟨of_decide_eq_true, fun h => decide_eq_true h⟩

theorem toNat_ofNat_of_roundsFit {r : Nat} (h : roundsFit r = true) : (BitVec.ofNat 8 r).toNat = r := by
  have h' : r < 256 := of_decide_eq_true h
  simpa using h'

/-- Laying a word out in its lanes and reading the lanes back gives the word (20_memory.md R83). -/
theorem wordOfLanes_lanesOf (w : Word) : wordOfLanes (lanesOf w) = some w := by
  simp only [lanesOf, lane, List.range, List.range.loop, List.map, wordOfLanes, Option.some.injEq]
  apply BitVec.eq_of_getLsbD_eq
  intro k hk
  simp only [BitVec.getLsbD_append, BitVec.getLsbD_extractLsb']
  grind

/-- A row of at most 64 bits is decoded as the word its bits are. -/
theorem decodeTableWord_eq {nbits w : Nat} (h : nbits ≤ 64) :
    decodeTableWord nbits w = (decode (tableWord nbits w)).toOption := by
  simp [decodeTableWord, h, decodeLanes, wordOfLanes_lanesOf]

end Sys2Proof
end

