-- ==== Sys2Proof/Laws/Ops.lean ====
section
/-! SUPPORT. What the shared operations of Machine/Ops.lean and Machine/Engine.lean can do: the register map, host accesses,
the engine's turn, reset. -/

namespace Sys2Proof.Machine

/-- Every register stands at its offset (10_state.md R32). -/
@[simp] theorem regAt_offset (r : Reg) : regAt r.offset = some r := by
  cases r with
  | reserved k => revert k; decide
  | _ => rfl

/-- A register stands at an offset exactly when the offset is a multiple of 8 (20_memory.md R81). -/
theorem regAt_isSome_iff (off : BitVec 7) : (regAt off).isSome = true ↔ off.toNat % 8 = 0 := by
  revert off; decide

/-- Two registers never share an offset. -/
theorem offset_of_regAt {off : BitVec 7} {r : Reg} (h : regAt off = some r) : r.offset = off := by
  revert h; revert off
  cases r with
  | reserved k => revert k; decide
  | _ => decide

theorem accessed_offset (r : Reg) : accessed r.offset 64 = some r := by simp [accessed]

/-- An access moves a register exactly when it is 64 bits wide at a multiple of 8 (20_memory.md R81, R82). -/
theorem accessed_isSome_iff (off : BitVec 7) (width : Nat) :
    (accessed off width).isSome = true ↔ width = 64 ∧ off.toNat % 8 = 0 := by
  unfold accessed
  split
  · rw [regAt_isSome_iff]; simp [*]
  · simp [*]

theorem accessed_eq_none_iff (off : BitVec 7) (width : Nat) :
    accessed off width = none ↔ width ≠ 64 ∨ off.toNat % 8 ≠ 0 := by
  rw [← Option.not_isSome_iff_eq_none, accessed_isSome_iff]; tauto

/-- Everything a host read can do. -/
theorem hostRead_next {P : Params} {off : BitVec 7} {width : Nat} {s t : State}
    (h : hostRead P off width s = .next t) :
    s.rstN = true ∧ ∃ r, accessed off width = some r ∧ t = { s with reply := .readData (readReg P r s) } := by
  unfold hostRead at h
  split at h
  · split at h
    · rename_i hr _ r ha
      exact ⟨hr, r, ha, by injection h with h; exact h.symm⟩
    · cases h
  · cases h

/-- Everything a host write can do. -/
theorem hostWrite_next {off : BitVec 7} {width : Nat} {v : Word} {s t : State}
    (h : hostWrite off width v s = .next t) :
    s.rstN = true ∧ ∃ r, accessed off width = some r ∧ t = { writeReg r v s with reply := .written } := by
  unfold hostWrite at h
  split at h
  · split at h
    · rename_i hr _ r ha
      exact ⟨hr, r, ha, by injection h with h; exact h.symm⟩
    · cases h
  · cases h

/-- A defined read out of reset answers the register's value. -/
theorem hostRead_of_accessed {P : Params} {off : BitVec 7} {width : Nat} {s : State} {r : Reg}
    (hr : s.rstN = true) (ha : accessed off width = some r) :
    hostRead P off width s = .next { s with reply := .readData (readReg P r s) } := by
  simp [hostRead, hr, ha]

/-- A defined write out of reset is done. -/
theorem hostWrite_of_accessed {off : BitVec 7} {width : Nat} {v : Word} {s : State} {r : Reg}
    (hr : s.rstN = true) (ha : accessed off width = some r) :
    hostWrite off width v s = .next { writeReg r v s with reply := .written } := by
  simp [hostWrite, hr, ha]

/-- Everything a register write can change: what 20_memory.md R85 lists, and no more. -/
theorem writeReg_frame (r : Reg) (v : Word) (s : State) :
    (writeReg r v s).result = s.result ∧ (writeReg r v s).iterCount = s.iterCount ∧
    (writeReg r v s).cfg = s.cfg ∧ (writeReg r v s).rstN = s.rstN ∧ (writeReg r v s).reply = s.reply ∧
    (writeReg r v s).inputs = s.inputs ∧
    (writeReg r v s).status.rangeValid = s.status.rangeValid ∧
    (writeReg r v s).status.feistelValid = s.status.feistelValid ∧
    (s.status.busy = true → (writeReg r v s).latch = s.latch ∧ (writeReg r v s).cmdLast = s.cmdLast ∧
      (writeReg r v s).status.busy = true ∧ (writeReg r v s).status.err = s.status.err ∧
      ((writeReg r v s).status.done = true → s.status.done = true)) := by
  cases r with
  | cmd => cases h : s.status.busy <;> simp [writeReg, h]
  | status => simp [writeReg]; intro hb; exact ⟨hb, fun hd _ => hd⟩
  | _ => simp [writeReg]

/-- Everything the engine's turn can do. -/
theorem engineTurn_cases (s : State) :
    (s.rstN = true ∧ s.status.busy = true ∧ engineTurn s = completeCommand s.latch.cmd s) ∨
    ((s.rstN = false ∨ s.status.busy = false) ∧ engineTurn s = .next s) := by
  unfold engineTurn
  cases s.rstN <;> cases s.status.busy <;> simp

theorem completeCommand_of_decode {w : Word} {i : Instr} (h : decode w = .ok i) (s : State) :
    completeCommand w s = exec i s := by simp [completeCommand, h]

/-- The completion of a word is the run of the command it decodes to, or `ILLEGAL_CMD`. -/
theorem completeCommand_cases (w : Word) (s : State) :
    (∃ i, decode w = .ok i ∧ completeCommand w s = exec i s) ∨
    (∃ e, decode w = .error e ∧ completeCommand w s = .next (raiseError .illegalCmd s)) := by
  unfold completeCommand
  cases h : decode w with
  | ok i => exact .inl ⟨i, rfl, rfl⟩
  | error e => exact .inr ⟨e, rfl, rfl⟩

/-- Everything a level of the reset input can do. -/
theorem driveReset_cases (level : Bool) (s : State) :
    (level = true ∧ s.rstN = true ∧ driveReset level s = s) ∨
    ((level = false ∨ s.rstN = false) ∧
      driveReset level s = { State.reset with rstN := level, inputs := s.inputs }) := by
  unfold driveReset
  cases level <;> cases s.rstN <;> simp

/-- The bus address of an offset is in the window, at that offset (20_memory.md R80). -/
theorem windowOffset_busAddress (P : Params) (off : BitVec 7) :
    windowOffset P (busAddress P off) = some off := by
  have := off.isLt
  have h : P.fpeBase + off.toNat < P.fpeBase + 0x80 := by omega
  simp [windowOffset, busAddress, h]

end Sys2Proof.Machine
end

