-- ==== Sys2Proof/Laws/Operands.lean ====
section
/-! SUPPORT. The bit length and the geometry of a configuration (spec/00_scope.md section 4, spec/41_feistel.md R136 to
R138, spec/42_range.md R166). -/

namespace Sys2Proof.Machine

/-- `bitlen v` is the smallest `n` with `v < 2^n` (00_scope.md section 4). -/
theorem bitlen_le_iff (v : Word) (n : Nat) : bitlen v ≤ n ↔ v.toNat < 2 ^ n := by
  unfold bitlen
  cases h : (List.range 65).find? fun n => decide (v.toNat < 2 ^ n) with
  | none =>
    have := List.find?_eq_none.1 h 64 (by simp)
    have hv := v.isLt
    simp at this; omega
  | some m =>
    rw [List.find?_range_eq_some] at h
    obtain ⟨hm, _, hlt⟩ := h
    simp only [decide_eq_true_eq] at hm
    simp only [Option.getD_some]
    constructor
    · intro hmn; exact lt_of_lt_of_le hm (Nat.pow_le_pow_right (by decide) hmn)
    · intro hv
      by_contra hc
      have := hlt n (by omega)
      simp at this; omega

theorem lt_two_pow_bitlen (v : Word) : v.toNat < 2 ^ bitlen v := (bitlen_le_iff v _).1 le_rfl

theorem bitlen_le (v : Word) : bitlen v ≤ 64 := (bitlen_le_iff v 64).2 v.isLt

theorem halfWidthOf_le {w : Nat} (h : w ≤ 64) : halfWidthOf w ≤ 32 := by unfold halfWidthOf; omega

theorem toNat_halfMaskOf {h : Nat} (hh : h ≤ 64) : (halfMaskOf h).toNat = 2 ^ h - 1 := by
  unfold halfMaskOf
  have : 2 ^ h ≤ 2 ^ 64 := Nat.pow_le_pow_right (by decide) hh
  have : 0 < 2 ^ h := Nat.two_pow_pos h
  simp only [BitVec.toNat_ofNat]
  apply Nat.mod_eq_of_lt; omega

/-- The fields of a configuration hold what it was built for, when its width and round count are legal. -/
theorem configFor_fields {min size : Word} {w r : Nat} (hw : w ≤ 64) (hr : r ≤ 255) :
    (configFor min size w r).geom.w.toNat = w ∧ (configFor min size w r).geom.h.toNat = (w + 1) / 2 ∧
    (configFor min size w r).geom.rounds.toNat = r ∧
    (configFor min size w r).halfMask.toNat = 2 ^ ((w + 1) / 2) - 1 := by
  have h1 := toNat_halfMaskOf (h := (w + 1) / 2) (by omega)
  refine ⟨?_, ?_, ?_, h1⟩ <;> simp [configFor, halfWidthOf] <;> omega

/-- Bit `k` of a half mask is set exactly below the half width. -/
theorem getLsbD_halfMaskOf {h : Nat} (hh : h ≤ 64) (k : Nat) : (halfMaskOf h).getLsbD k = decide (k < h) := by
  rw [← BitVec.testBit_toNat, toNat_halfMaskOf hh, Nat.testBit_two_pow_sub_one]

/-- Masking is reduction modulo `2^h`. -/
theorem toNat_and_halfMaskOf {h : Nat} (hh : h ≤ 64) (v : Word) : (v &&& halfMaskOf h).toNat = v.toNat % 2 ^ h := by
  rw [BitVec.toNat_and, toNat_halfMaskOf hh, Nat.and_two_pow_sub_one_eq_mod]

end Sys2Proof.Machine
end

