-- ==== Sys2Proof/Laws/Feistel.lean ====
section
/-! SUPPORT. The halves of a block stay below `2^h`, splitting and joining undo each other, and each round is undone by its
inverse (spec/41_feistel.md R140, R141, R144). -/

namespace Sys2Proof.Machine

/-- Both halves are below `2^h`. -/
def Halves.Below (h : Nat) (p : Halves) : Prop := p.left.toNat < 2 ^ h ∧ p.right.toNat < 2 ^ h

theorem roundValue_lt {P : Params} {h i : Nat} (hh : h ≤ 32) (v : Word) : (roundValue P h i v).toNat < 2 ^ h := by
  rw [roundValue, toNat_and_halfMaskOf (by omega)]
  exact Nat.mod_lt _ (Nat.two_pow_pos h)

theorem xor_lt {h : Nat} {a b : Word} (ha : a.toNat < 2 ^ h) (hb : b.toNat < 2 ^ h) : (a ^^^ b).toNat < 2 ^ h := by
  rw [BitVec.toNat_xor]; exact Nat.xor_lt_two_pow ha hb

theorem splitBlock_below {h : Nat} (hh : h ≤ 32) {m : Word} (hm : m.toNat < 2 ^ (2 * h)) :
    (splitBlock h m).Below h := by
  constructor
  · simp only [splitBlock, BitVec.toNat_ushiftRight, Nat.shiftRight_eq_div_pow]
    rw [Nat.div_lt_iff_lt_mul (Nat.two_pow_pos h), ← pow_add]
    rwa [two_mul] at hm
  · simp only [splitBlock, toNat_and_halfMaskOf (h := h) (by omega)]
    exact Nat.mod_lt _ (Nat.two_pow_pos h)

/-- Joining halves below `2^h` loses nothing. -/
theorem toNat_joinHalves {h : Nat} (hh : h ≤ 32) {p : Halves} (hp : p.Below h) :
    (joinHalves h p).toNat = p.left.toNat * 2 ^ h + p.right.toNat := by
  have hlt : p.left.toNat * 2 ^ h < 2 ^ 64 := by
    calc p.left.toNat * 2 ^ h < 2 ^ h * 2 ^ h := Nat.mul_lt_mul_of_pos_right hp.1 (Nat.two_pow_pos h)
      _ = 2 ^ (h + h) := (pow_add 2 h h).symm
      _ ≤ 2 ^ 64 := Nat.pow_le_pow_right (by decide) (by omega)
  rw [joinHalves, BitVec.toNat_or, BitVec.toNat_shiftLeft, Nat.shiftLeft_eq, Nat.mod_eq_of_lt hlt, ← Nat.shiftLeft_eq,
    ← Nat.shiftLeft_add_eq_or_of_lt hp.2]

theorem joinHalves_lt {h : Nat} (hh : h ≤ 32) {p : Halves} (hp : p.Below h) :
    (joinHalves h p).toNat < 2 ^ (2 * h) := by
  rw [toNat_joinHalves hh hp, two_mul, pow_add]
  have h1 : p.left.toNat + 1 ≤ 2 ^ h := hp.1
  have h2 := hp.2
  calc p.left.toNat * 2 ^ h + p.right.toNat < p.left.toNat * 2 ^ h + 2 ^ h := by omega
    _ = (p.left.toNat + 1) * 2 ^ h := by ring
    _ ≤ 2 ^ h * 2 ^ h := Nat.mul_le_mul_right _ h1

theorem splitBlock_joinHalves {h : Nat} (hh : h ≤ 32) {p : Halves} (hp : p.Below h) :
    splitBlock h (joinHalves h p) = p := by
  have hj := toNat_joinHalves hh hp
  have h1 : (splitBlock h (joinHalves h p)).left = p.left := by
    apply BitVec.eq_of_toNat_eq
    simp only [splitBlock, BitVec.toNat_ushiftRight, Nat.shiftRight_eq_div_pow, hj]
    rw [mul_comm, Nat.mul_add_div (Nat.two_pow_pos h), Nat.div_eq_of_lt hp.2, add_zero]
  have h2 : (splitBlock h (joinHalves h p)).right = p.right := by
    apply BitVec.eq_of_toNat_eq
    simp only [splitBlock, toNat_and_halfMaskOf (h := h) (by omega), hj]
    rw [mul_comm, Nat.mul_add_mod, Nat.mod_eq_of_lt hp.2]
  cases p
  simp_all [splitBlock]

theorem joinHalves_splitBlock {h : Nat} (hh : h ≤ 32) {m : Word} (hm : m.toNat < 2 ^ (2 * h)) :
    joinHalves h (splitBlock h m) = m := by
  apply BitVec.eq_of_toNat_eq
  rw [toNat_joinHalves hh (splitBlock_below hh hm)]
  simp only [splitBlock, BitVec.toNat_ushiftRight, Nat.shiftRight_eq_div_pow, toNat_and_halfMaskOf (h := h) (by omega)]
  exact Nat.div_add_mod' _ _

theorem encRound_below {P : Params} {h i : Nat} (hh : h ≤ 32) {p : Halves} (hp : p.Below h) :
    (encRound P h i p).Below h := ⟨hp.2, xor_lt hp.1 (roundValue_lt hh _)⟩

theorem decRound_below {P : Params} {h i : Nat} (hh : h ≤ 32) {p : Halves} (hp : p.Below h) :
    (decRound P h i p).Below h := ⟨xor_lt hp.2 (roundValue_lt hh _), hp.1⟩

theorem encRounds_below {P : Params} {h : Nat} (hh : h ≤ 32) (r : Nat) {p : Halves} (hp : p.Below h) :
    (encRounds P h r p).Below h := by
  induction r with
  | zero => exact hp
  | succ r ih => exact encRound_below hh ih

theorem decRounds_below {P : Params} {h : Nat} (hh : h ≤ 32) (r : Nat) {p : Halves} (hp : p.Below h) :
    (decRounds P h r p).Below h := by
  induction r generalizing p with
  | zero => exact hp
  | succ r ih => exact ih (decRound_below hh hp)

/-- Round `i` undone after it was run. -/
@[simp] theorem decRound_encRound (P : Params) (h i : Nat) (p : Halves) : decRound P h i (encRound P h i p) = p := by
  cases p; simp [decRound, encRound]

/-- Round `i` run after it was undone. -/
@[simp] theorem encRound_decRound (P : Params) (h i : Nat) (p : Halves) : encRound P h i (decRound P h i p) = p := by
  cases p; simp [decRound, encRound]

/-- What the halves are after the rounds of a Feistel encode: splitting its result gives them back. -/
theorem splitBlock_feistelEnc {P : Params} {h r : Nat} (hh : h ≤ 32) {m : Word} (hm : m.toNat < 2 ^ (2 * h)) :
    splitBlock h (feistelEnc P h r m) = encRounds P h r (splitBlock h m) :=
  splitBlock_joinHalves hh (encRounds_below hh r (splitBlock_below hh hm))

theorem splitBlock_feistelDec {P : Params} {h r : Nat} (hh : h ≤ 32) {m : Word} (hm : m.toNat < 2 ^ (2 * h)) :
    splitBlock h (feistelDec P h r m) = decRounds P h r (splitBlock h m) :=
  splitBlock_joinHalves hh (decRounds_below hh r (splitBlock_below hh hm))

end Sys2Proof.Machine
end

