-- ==== Sys2Proof/Laws/Range.lean ====
section
/-! SUPPORT. What a cycle walk answers: the first return to the range within its fuel (spec/42_range.md R169, R170). -/

namespace Sys2Proof.Machine

/-- A walk answers `(y, n)` exactly when `n` applications are the first to come below `size`, they give `y`, and the fuel
allows them. -/
theorem walk_eq_some_iff (f : Word → Word) (size : Word) (fuel : Nat) (x y : Word) (n : Nat) :
    walk f size fuel x = some (y, n) ↔ FirstReturn f size x y n ∧ n ≤ fuel := by
  induction fuel generalizing x n with
  | zero =>
    simp only [walk, FirstReturn]
    constructor
    · intro h; cases h
    · rintro ⟨⟨h, _⟩, h'⟩; omega
  | succ fuel ih =>
    by_cases hx : f x < size
    · simp only [walk, hx, if_true, Option.some.injEq, Prod.mk.injEq]
      constructor
      · rintro ⟨rfl, rfl⟩
        exact ⟨⟨le_rfl, rfl, hx, fun k h1 h2 => by omega⟩, by omega⟩
      · rintro ⟨⟨h1, hy, _, hk⟩, _⟩
        have : n = 1 := by
          by_contra hn
          exact hk 1 le_rfl (by omega) hx
        subst this
        exact ⟨hy, rfl⟩
    · simp only [walk, hx, if_false, Option.map_eq_some_iff, Prod.mk.injEq]
      constructor
      · rintro ⟨⟨y', m⟩, hw, rfl, rfl⟩
        obtain ⟨⟨h1, hy, hlt, hk⟩, hf⟩ := (ih _ _).1 hw
        refine ⟨⟨by omega, hy, hlt, ?_⟩, by simp only; omega⟩
        intro k hk1 hk2
        match k, hk1 with
        | 1, _ => exact hx
        | k + 2, _ => exact hk (k + 1) (by omega) (by simp only at hk2; omega)
      · rintro ⟨⟨h1, hy, hlt, hk⟩, hf⟩
        match n, h1 with
        | 1, _ => exact absurd (show f x < size by simpa [← hy] using hlt) hx
        | m + 2, _ =>
          refine ⟨(y, m + 1), (ih _ _).2 ⟨⟨by omega, hy, hlt, ?_⟩, by omega⟩, rfl, rfl⟩
          intro k hk1 hk2
          exact hk (k + 1) (by omega) (by omega)

/-- A first return is unique. -/
theorem FirstReturn.unique {f : Word → Word} {size x y y' : Word} {n n' : Nat} (h : FirstReturn f size x y n)
    (h' : FirstReturn f size x y' n') : y = y' ∧ n = n' := by
  have hn : n = n' := by
    rcases lt_trichotomy n n' with hlt | heq | hgt
    · exact absurd (by rw [h.2.1]; exact h.2.2.1) (h'.2.2.2 n h.1 hlt)
    · exact heq
    · exact absurd (by rw [h'.2.1]; exact h'.2.2.1) (h.2.2.2 n' h'.1 hgt)
  subst hn
  exact ⟨h.2.1.symm.trans h'.2.1, rfl⟩

/-- The operand is in the latched range, in numbers. -/
theorem inRange_iff (s : State) :
    s.inRange = true ↔ s.latch.cfg.min.toNat ≤ s.latch.a.toNat ∧
      s.latch.a.toNat - s.latch.cfg.min.toNat < s.latch.cfg.size.toNat := by
  simp only [State.inRange, State.opA, Bool.not_eq_true', Bool.or_eq_false_iff, decide_eq_false_iff_not,
    BitVec.le_def, BitVec.lt_def, Nat.not_lt, Nat.not_le]
  refine and_congr_right fun h1 => ?_
  rw [BitVec.toNat_sub_of_le (by rwa [BitVec.le_def])]

/-- Everything a range command can do. -/
theorem rangeCommand_cases (w : Nat → Nat → Word → Word → Option (Word × Nat)) (s : State) :
    (s.latch.rangeValid = false ∧ rangeCommand w s = .next (raiseError .notConfigured s)) ∨
    (s.latch.rangeValid = true ∧ s.inRange = false ∧ rangeCommand w s = .next (raiseError .outOfDomain s)) ∨
    (s.latch.rangeValid = true ∧ s.inRange = true ∧
      rangeCommand w s = finishWalk s.latch.cfg.min
        (w s.halfWidth s.roundCount s.latch.cfg.size (s.latch.a - s.latch.cfg.min)) s) := by
  unfold rangeCommand
  cases s.latch.rangeValid <;> cases s.inRange <;> simp [State.opA]

/-- Everything the end of a walk can do. -/
theorem finishWalk_next {min : Word} {walked : Option (Word × Nat)} {s t : State}
    (h : finishWalk min walked s = .next t) :
    ∃ x n, walked = some (x, n) ∧ t = completeOk (BitVec.ofNat 64 n) (setResult (x + min) s) := by
  unfold finishWalk at h
  split at h
  · rename_i x n; injection h with h; exact ⟨x, n, rfl, h.symm⟩
  · cases h

/-- Everything a Feistel command can do. -/
theorem feistelCommand_cases (f : Nat → Nat → Word → Word) (s : State) :
    (s.latch.feistelValid = false ∧ feistelCommand f s = .next (raiseError .notConfigured s)) ∨
    (s.latch.feistelValid = true ∧ s.inFeistelDomain = false ∧
      feistelCommand f s = .next (raiseError .outOfDomain s)) ∨
    (s.latch.feistelValid = true ∧ s.inFeistelDomain = true ∧
      feistelCommand f s = .next (completeOk 1#64 (setResult (f s.halfWidth s.roundCount s.latch.a) s))) := by
  unfold feistelCommand
  cases s.latch.feistelValid <;> cases s.inFeistelDomain <;> simp [State.opA]

/-- Everything `CFG_RANGE` can do. -/
theorem cfgRange_cases (P : Params) (r : Nat) (s : State) :
    (s.latch.b ≤ s.latch.a ∧ cfgRange P r s = .next (raiseError .rangeEmpty s)) ∨
    (s.latch.a < s.latch.b ∧ P.numRc < r ∧ cfgRange P r s = .next (raiseError .roundsExceedTable s)) ∨
    (s.latch.a < s.latch.b ∧ r ≤ P.numRc ∧
      cfgRange P r s = .next (completeOk 0#64 (setConfig (configFor s.latch.a (s.latch.b - s.latch.a)
        (rangeWidth (s.latch.b - s.latch.a)) r) true true s))) := by
  simp only [cfgRange, State.opA, State.opB]
  by_cases h : s.latch.b ≤ s.latch.a
  · simp [h]
  · by_cases h' : P.numRc < r
    · simp [h, h', BitVec.not_le.1 h]
    · simp [h, h', BitVec.not_le.1 h, Nat.not_lt.1 h']

/-- Everything `CFG_FEISTEL` can do. -/
theorem cfgFeistel_cases (P : Params) (r : Nat) (s : State) :
    (64 < s.latch.a.toNat ∧ cfgFeistel P r s = .next (raiseError .bitsTooWide s)) ∨
    (s.latch.a.toNat ≤ 64 ∧ P.numRc < r ∧ cfgFeistel P r s = .next (raiseError .roundsExceedTable s)) ∨
    (s.latch.a.toNat ≤ 64 ∧ r ≤ P.numRc ∧
      cfgFeistel P r s =
        .next (completeOk 0#64 (setConfig (configFor 0#64 0#64 s.latch.a.toNat r) false true s))) := by
  simp only [cfgFeistel, State.opA, Config.maxBits]
  by_cases h : 64 < s.latch.a.toNat
  · simp [h]
  · by_cases h' : P.numRc < r
    · simp [h, h', Nat.not_lt.1 h]
    · simp [h, h', Nat.not_lt.1 h, Nat.not_lt.1 h']

end Sys2Proof.Machine
end

