-- ==== Sys2Proof/Laws/Exec.lean ====
section
/-! SUPPORT. What every completion leaves as it was (spec/30_encoding.md R108, spec/60_exceptions.md R202). -/

namespace Sys2Proof.Machine

/-- What no completion changes, and the two bits every completion sets. -/
def KeptByCompletion (s t : State) : Prop :=
  t.opa = s.opa ∧ t.opb = s.opb ∧ t.inputs = s.inputs ∧ t.reply = s.reply ∧ t.status.ovr = s.status.ovr ∧
  t.ie = s.ie ∧ t.rstN = s.rstN ∧ t.latch = s.latch ∧ t.cmdLast = s.cmdLast ∧ t.status.busy = false ∧
  t.status.done = true

theorem raiseError_frame (c : Code) (s : State) : KeptByCompletion s (raiseError c s) := by
  cases c <;> exact ⟨rfl, rfl, rfl, rfl, rfl, rfl, rfl, rfl, rfl, rfl, rfl⟩

/-- An error completion reports its code and no iterations, and keeps `RESULT` and the configuration registers. -/
theorem raiseError_outputs (c : Code) (s : State) :
    (raiseError c s).status.err = c ∧ (raiseError c s).iterCount = 0#64 ∧ (raiseError c s).result = s.result ∧
    (raiseError c s).cfg = s.cfg := by
  cases c <;> exact ⟨rfl, rfl, rfl, rfl⟩

/-- The frame of a command. -/
theorem exec_frame {i : Instr} {s t : State} (h : exec i s = .next t) :
    KeptByCompletion s t := by
  have fin : ∀ c, raiseError c s = t → KeptByCompletion s t := by
    rintro c rfl; exact raiseError_frame c s
  cases i with
  | cfgRange r =>
    rcases cfgRange_cases Config.params r s with ⟨_, h'⟩ | ⟨_, _, h'⟩ | ⟨_, _, h'⟩ <;>
      (have := h'.symm.trans h; injection this with this)
    · exact fin _ this
    · exact fin _ this
    · subst this; simp [KeptByCompletion]
  | cfgFeistel r =>
    rcases cfgFeistel_cases Config.params r s with ⟨_, h'⟩ | ⟨_, _, h'⟩ | ⟨_, _, h'⟩ <;>
      (have := h'.symm.trans h; injection this with this)
    · exact fin _ this
    · exact fin _ this
    · subst this; simp [KeptByCompletion]
  | feistelEnc =>
    rcases feistelCommand_cases (feistelEnc Config.params) s with ⟨_, h'⟩ | ⟨_, _, h'⟩ | ⟨_, _, h'⟩ <;>
      (have := h'.symm.trans h; injection this with this)
    · exact fin _ this
    · exact fin _ this
    · subst this; simp [KeptByCompletion]
  | feistelDec =>
    rcases feistelCommand_cases (feistelDec Config.params) s with ⟨_, h'⟩ | ⟨_, _, h'⟩ | ⟨_, _, h'⟩ <;>
      (have := h'.symm.trans h; injection this with this)
    · exact fin _ this
    · exact fin _ this
    · subst this; simp [KeptByCompletion]
  | rangeEnc =>
    rcases rangeCommand_cases (walkEnc Config.params) s with ⟨_, h'⟩ | ⟨_, _, h'⟩ | ⟨_, _, h'⟩ <;>
      have := h'.symm.trans h
    · injection this with this; exact fin _ this
    · injection this with this; exact fin _ this
    · obtain ⟨x, n, _, rfl⟩ := finishWalk_next this; simp [KeptByCompletion]
  | rangeDec =>
    rcases rangeCommand_cases (walkDec Config.params) s with ⟨_, h'⟩ | ⟨_, _, h'⟩ | ⟨_, _, h'⟩ <;>
      have := h'.symm.trans h
    · injection this with this; exact fin _ this
    · injection this with this; exact fin _ this
    · obtain ⟨x, n, _, rfl⟩ := finishWalk_next this; simp [KeptByCompletion]
/-- The frame of a completion of any command word. -/
theorem completeCommand_frame {w : Word} {s t : State} (h : completeCommand w s = .next t) :
    KeptByCompletion s t := by
  rcases completeCommand_cases w s with ⟨i, _, h'⟩ | ⟨e, _, h'⟩
  · rw [h'] at h; exact exec_frame h
  · rw [h'] at h; injection h with h; subst h; exact raiseError_frame _ s
/-- The frame of the engine's turn with a command in flight. -/
theorem engineTurn_frame {s t : State} (hr : s.rstN = true) (hb : s.status.busy = true)
    (h : engineTurn s = .next t) :
    KeptByCompletion s t := by
  rcases engineTurn_cases s with ⟨_, _, h'⟩ | ⟨h', _⟩
  · rw [h'] at h; exact completeCommand_frame h
  · simp [hr, hb] at h'

end Sys2Proof.Machine
end

