-- ==== Sys2Proof/Certificates/Slice0/Obligations.lean ====
section
/-! DEFINITION. The statements for the provers, from the numbered rules of spec/. `Config.params` are the opaque parameters
of the hardware at hand; a statement over `P : Params` holds for every legal choice of them. The fields `reply` and
`inputs` of the state are the model's own (log 1, log 9). -/

open Sys2Proof Sys2Proof.Machine

/-! ## The command word -/

/-- 30_encoding.md R109's encodings, and opcode_table.json's bits through `decodeTableWord`. -/
def Obligations.TableWordsDecode : Prop :=
  decode 0x0000000000000301#64 = .ok (.cfgRange 3) ∧
  decode 0x000000000000FF01#64 = .ok (.cfgRange 255) ∧
  decode 0x0000000000000D02#64 = .ok (.cfgFeistel 13) ∧
  decode 0x0000000000000003#64 = .ok .rangeEnc ∧
  decode 0x0000000000000004#64 = .ok .rangeDec ∧
  decode 0x0000000000000005#64 = .ok .feistelEnc ∧
  decode 0x0000000000000006#64 = .ok .feistelDec ∧
  decodeTableWord 64 0x0001 = some (.cfgRange 0) ∧
  decodeTableWord 64 0x0006 = some .feistelDec

/-- Decoding an encoded well-formed command gives it back, for every command and every round count the field holds. -/
def Obligations.DecodeOfEncode : Prop :=
  ∀ i : Instr, i.wellFormed = true → decode (encode i) = .ok i

/-- Each legal word has one meaning: encoding what it decodes to gives the word back, and what it decodes to is
well-formed. -/
def Obligations.EncodeOfDecode : Prop :=
  ∀ (w : Word) (i : Instr), decode w = .ok i → encode i = w ∧ i.wellFormed = true

/-- 30_encoding.md R104, 60_exceptions.md R203: which words are legal; every other word is accepted by an idle block and ends
in the error completion `ILLEGAL_CMD`, before anything else and with no other effect. -/
def Obligations.LegalWordsExactly : Prop :=
  (∀ w : Word, LegalWord w ↔ ∃ i, decode w = .ok i) ∧
  ∀ (w : Word) (s : State), ¬ LegalWord w →
    (s.rstN = true → s.status.busy = false →
      hostWrite 0x10#7 64 w s = .next { accept w s with reply := .written }) ∧
    (s.rstN = true → s.status.busy = true → s.latch.cmd = w →
      engineTurn s = .next { s with
        iterCount := 0#64
        status := { s.status with busy := false, done := true, err := .illegalCmd } })

/-- 30_encoding.md R102: the round count is `cmd[15:8]`, unsigned, 0 to 255, unscaled, and every value is legal as an
encoding; one above `NUM_RC` ends in `ROUNDS_EXCEED_TABLE` where no earlier check of 60_exceptions.md R211 applies. -/
def Obligations.RoundsFieldIsUnscaled : Prop :=
  (∀ (w : Word) (r : Nat), decode w = .ok (.cfgRange r) ∨ decode w = .ok (.cfgFeistel r) →
    r = w.toNat / 256 % 256) ∧
  (∀ r : Nat, r ≤ 255 →
    decode (BitVec.ofNat 64 (256 * r + 1)) = .ok (.cfgRange r) ∧
    decode (BitVec.ofNat 64 (256 * r + 2)) = .ok (.cfgFeistel r)) ∧
  ∀ (s : State) (r : Nat), Config.params.numRc < r →
    (s.latch.a < s.latch.b → ∃ t, exec (.cfgRange r) s = .next t ∧ t.status.err = .roundsExceedTable) ∧
    (s.latch.a.toNat ≤ 64 → ∃ t, exec (.cfgFeistel r) s = .next t ∧ t.status.err = .roundsExceedTable)

/-! ## The register window -/

/-- 20_memory.md R85: what a host write of a whole register does, offset by offset, and nothing else. -/
def Obligations.HostWriteEffects : Prop :=
  ∀ (s : State) (v : Word), s.rstN = true →
    hostWrite 0x00#7 64 v s = .next { s with ie := v.getLsbD 0, reply := .written } ∧
    hostWrite 0x08#7 64 v s = .next { s with
      status := { s.status with
        done := if v.getLsbD 1 then false else s.status.done
        ovr := if v.getLsbD 2 then false else s.status.ovr }
      reply := .written } ∧
    (s.status.busy = false → hostWrite 0x10#7 64 v s = .next { accept v s with reply := .written }) ∧
    (s.status.busy = true →
      hostWrite 0x10#7 64 v s = .next { s with status := { s.status with ovr := true }, reply := .written }) ∧
    hostWrite 0x18#7 64 v s = .next { s with opa := v, reply := .written } ∧
    hostWrite 0x20#7 64 v s = .next { s with opb := v, reply := .written } ∧
    ∀ off : BitVec 7, 0x28 ≤ off.toNat → off.toNat % 8 = 0 →
      hostWrite off 64 v s = .next { s with reply := .written }

/-- 20_memory.md R84, 10_state.md R32: a defined read changes no register and answers the register of its offset, reserved
bits 0, and the same again whatever the port answered before. -/
def Obligations.WindowReads : Prop :=
  ∀ s : State, s.rstN = true →
    let reads (off : BitVec 7) (v : Word) : Prop := ∀ x : PortReply,
      hostRead Config.params off 64 { s with reply := x } = .next { s with reply := .readData v }
    (∃ v, reads 0x00#7 v ∧ v.toNat = s.ie.toNat) ∧
    (∃ v, reads 0x08#7 v ∧ StatusBits s.status v) ∧
    reads 0x10#7 s.cmdLast ∧ reads 0x18#7 s.opa ∧ reads 0x20#7 s.opb ∧ reads 0x28#7 s.result ∧
    reads 0x30#7 s.iterCount ∧ reads 0x38#7 s.cfg.min ∧ reads 0x40#7 s.cfg.size ∧
    (∃ v, reads 0x48#7 v ∧ GeomBits s.cfg.geom v) ∧
    reads 0x50#7 s.cfg.halfMask ∧
    (∃ v, reads 0x58#7 v ∧ v.toNat = Config.params.numRc + 3 * 2 ^ 8 + 64 * 2 ^ 16) ∧
    reads 0x60#7 0#64 ∧ reads 0x68#7 0#64 ∧ reads 0x70#7 0#64 ∧ reads 0x78#7 0#64

/-- 10_state.md R58: the reserved offsets read 0, and neither a read nor a write of one has any other effect. -/
def Obligations.ReservedOffsets : Prop :=
  ∀ (s : State) (v : Word) (off : BitVec 7), s.rstN = true →
    off = 0x60#7 ∨ off = 0x68#7 ∨ off = 0x70#7 ∨ off = 0x78#7 →
      hostRead Config.params off 64 s = .next { s with reply := .readData 0#64 } ∧
      hostWrite off 64 v s = .next { s with reply := .written }

/-- 20_memory.md R82: an access of another width or at another offset is a fault of the host step, for every offset and
width, and so leaves no next state. -/
def Obligations.UndefinedAccessIsBusError : Prop :=
  ∀ (s : State) (off : BitVec 7) (width : Nat) (v : Word), s.rstN = true → width ≠ 64 ∨ off.toNat % 8 ≠ 0 →
    hostRead Config.params off width s = .fault .busError ∧ hostWrite off width v s = .fault .busError

/-- 20_memory.md R80: offset `off` of the window is bus address `FPE_BASE + off`, `FPE_BASE` is a multiple of 0x80, and an
access at a bus address reaches the block exactly when the address is in the window. -/
def Obligations.WindowAddressing : Prop :=
  ∀ P : Params, P.fpeBase % 0x80 = 0 ∧
    (∀ (off : BitVec 7) (width : Nat) (v : Word),
      busRead P (P.fpeBase + off.toNat) width = some (.read off width) ∧
      busWrite P (P.fpeBase + off.toNat) width v = some (.write off width v)) ∧
    ∀ (addr width : Nat) (v : Word), addr < P.fpeBase ∨ P.fpeBase + 0x80 ≤ addr →
      busRead P addr width = none ∧ busWrite P addr width v = none

/-- 20_memory.md R88: accept of any word, legal or not, by a write of `CMD` while `BUSY = 0`; `irq` goes to 0. -/
def Obligations.AcceptCopiesOperandsAndConfiguration : Prop :=
  ∀ (s : State) (v : Word), s.rstN = true → s.status.busy = false →
    ∃ t, hostWrite 0x10#7 64 v s = .next t ∧ t.irq = false ∧
      t = { s with
        cmdLast := v
        latch := { cmd := v, a := s.opa, b := s.opb, cfg := s.cfg, rangeValid := s.status.rangeValid,
                   feistelValid := s.status.feistelValid }
        status := { s.status with busy := true, done := false, ovr := false, err := .ok }
        reply := .written }

/-- 20_memory.md R89: a write of `CMD` while `BUSY = 1` changes `OVR` alone; the command in flight then completes as it
would have, but for `OVR`. -/
def Obligations.OverrunDropsTheCommand : Prop :=
  ∀ (s t : State) (v : Word), s.rstN = true → s.status.busy = true → hostWrite 0x10#7 64 v s = .next t →
    t = { s with status := { s.status with ovr := true }, reply := .written } ∧
    ∀ u, engineTurn s = .next u →
      engineTurn t = .next { u with status := { u.status with ovr := true }, reply := .written }

/-- 60_exceptions.md R214: `irq` is `DONE AND IE` at every point; what makes it rise and what makes it fall, and that nothing
else does; reset gives 0. -/
def Obligations.InterruptLevel : Prop :=
  (∀ s : State, s.irq = (s.status.done && s.ie)) ∧
  (∀ (s t : State) (e : Input), applyInput e s = .next t → s.irq = false → t.irq = true →
    (e = .engine ∧ s.status.busy = true ∧ s.ie = true) ∨
    (∃ v, e = .write 0x00#7 64 v ∧ v.getLsbD 0 = true ∧ s.status.done = true)) ∧
  (∀ (s t : State) (e : Input), applyInput e s = .next t → s.irq = true → t.irq = false →
    (∃ v, e = .write 0x08#7 64 v ∧ v.getLsbD 1 = true) ∨
    (∃ v, e = .write 0x10#7 64 v ∧ s.status.busy = false) ∨
    (∃ v, e = .write 0x00#7 64 v ∧ v.getLsbD 0 = false) ∨
    (∃ level, e = .rst level)) ∧
  (∀ (s t : State) (w : Word), completeCommand w s = .next t → t.irq = s.ie) ∧
  (∀ (s : State) (v : Word), s.rstN = true →
    (∃ t, hostWrite 0x00#7 64 v s = .next t ∧ t.irq = (s.status.done && v.getLsbD 0)) ∧
    (v.getLsbD 1 = true → ∃ t, hostWrite 0x08#7 64 v s = .next t ∧ t.irq = false) ∧
    (s.status.busy = false → ∃ t, hostWrite 0x10#7 64 v s = .next t ∧ t.irq = false)) ∧
  State.reset.irq = false ∧ ∀ s : State, (driveReset false s).irq = false

/-! ## Reset -/

/-- 70_reset_and_hazards.md R230: after reset every register reads its reset value, `irq` is 0, the engine is idle; while
`rst_n` is asserted every register has its reset value and a host access is a fault; deasserting it gives the reset
state. That `State.inputs` survives (log 1), the reset values of the copies (log 8) and of `reply` (log 9),
and that an access in reset which R82 also leaves undefined is `accessInReset` and not `busError` (log 12), are the
model's; that a fault ends the run is log 11. -/
def Obligations.ResetValues : Prop :=
  (∀ r : Reg, r ≠ .id → readReg Config.params r State.reset = 0#64) ∧
  (∀ s : State, readReg Config.params .id (driveReset false s) = readReg Config.params .id s) ∧
  State.reset.irq = false ∧ State.reset.status.busy = false ∧ State.reset.rstN = true ∧
  ∀ s : State,
    (∀ r : Reg, r ≠ .id → readReg Config.params r (driveReset false s) = 0#64) ∧
    (driveReset false s).status.busy = false ∧
    driveReset true (driveReset false s) = { State.reset with inputs := s.inputs } ∧
    ∀ (off : BitVec 7) (width : Nat) (v : Word),
      hostRead Config.params off width (driveReset false s) = .fault .accessInReset ∧
      hostWrite off width v (driveReset false s) = .fault .accessInReset

/-- 70_reset_and_hazards.md R232: a command in flight when `rst_n` is asserted makes no completion, during reset or after
it: no result, no configuration, no code, `DONE` stays 0 and `irq` does not rise. -/
def Obligations.ResetAbortsTheCommand : Prop :=
  ∀ s : State, s.rstN = true → s.status.busy = true →
    let t := driveReset false s
    let u := driveReset true t
    engineTurn t = .next t ∧ engineTurn u = .next u ∧
    ∀ x, x = t ∨ x = u → x.result = 0#64 ∧ x.cfg = CfgRegs.reset ∧ x.status = Status.reset ∧ x.irq = false

/-- 95_test_vectors.md V1: the completions of command words offered in the reset state, by the `STATUS` a host reads. -/
def Obligations.CommandsFromReset : Prop :=
  let statusAfter (w : Nat) (v : Nat) : Prop :=
    ∃ t, step (State.reset.withFetchWord 64 w) = .next t ∧ t.status.toWord.toNat = v ∧ t.cmdLast.toNat = w ∧
      t.iterCount = 0#64 ∧ t.result = 0#64
  statusAfter 0x0 0x102 ∧ statusAfter 0x301 0x202 ∧ statusAfter 0x302 0x12 ∧ statusAfter 0x3 0x502 ∧
  statusAfter 0x4 0x502 ∧ statusAfter 0x5 0x502 ∧ statusAfter 0x6 0x502 ∧ statusAfter 0x7 0x102 ∧
  statusAfter 0xF 0x102 ∧ statusAfter 0x13 0x102 ∧ statusAfter 0x103 0x102 ∧ statusAfter 0x10001 0x102 ∧
  statusAfter 0x8000000000000005 0x102 ∧ statusAfter 0xFF01 0x202 ∧ statusAfter 0x1 0x202

/-! ## The round function -/

/-- 40_round_function.md R122: symmetric, and a function of the sum modulo 2^64. -/
def Obligations.MixDependsOnTheSum : Prop :=
  ∀ (P : Params) (a b c d : Word),
    mix P a b = mix P b a ∧ (a + b = c + d → mix P a b = mix P c d) ∧ mix P a b = mixOfSum P (a + b)

/-- 40_round_function.md R123: `g` is a bijection with `g(0) = 0`, so `mix(a, b) = 0` exactly when the sum is 0. -/
def Obligations.MixIsABijectionOfTheSum : Prop :=
  ∀ P : Params, Function.Bijective (mixOfSum P) ∧ mixOfSum P 0#64 = 0#64 ∧
    ∀ a b : Word, mix P a b = 0#64 ↔ a + b = 0#64

/-! ## The Feistel core -/

/-- 41_feistel.md R142: the exact inverse on `D`, for every configuration, round constants and number of rounds. -/
def Obligations.FeistelDecodeInvertsEncode : Prop :=
  ∀ (P : Params) (h r : Nat) (m : Word), h ≤ 32 → m.toNat < 2 ^ (2 * h) →
    feistelDec P h r (feistelEnc P h r m) = m ∧ feistelEnc P h r (feistelDec P h r m) = m

/-- 41_feistel.md R143: both functions are bijections on `D`. -/
def Obligations.FeistelIsABijectionOfItsDomain : Prop :=
  ∀ (P : Params) (h r : Nat), h ≤ 32 →
    Set.BijOn (feistelEnc P h r) (feistelDomain h) (feistelDomain h) ∧
    Set.BijOn (feistelDec P h r) (feistelDomain h) (feistelDomain h)

/-- 41_feistel.md R144: the result is below `2^(2h)`, and through the rounds both halves are below `2^h`. -/
def Obligations.FeistelStaysInItsDomain : Prop :=
  ∀ (P : Params) (h r : Nat) (m : Word), h ≤ 32 → m.toNat < 2 ^ (2 * h) →
    (feistelEnc P h r m).toNat < 2 ^ (2 * h) ∧ (feistelDec P h r m).toNat < 2 ^ (2 * h) ∧
    ∀ k, (encRounds P h k (splitBlock h m)).left.toNat < 2 ^ h ∧
      (encRounds P h k (splitBlock h m)).right.toNat < 2 ^ h ∧
      (decRounds P h k (splitBlock h m)).left.toNat < 2 ^ h ∧
      (decRounds P h k (splitBlock h m)).right.toNat < 2 ^ h

/-- 41_feistel.md R145: no rounds is the identity on `D`; half width 0 maps 0 to 0 for every number of rounds. -/
def Obligations.FeistelIdentityCases : Prop :=
  ∀ P : Params,
    (∀ (h : Nat) (m : Word), h ≤ 32 → m.toNat < 2 ^ (2 * h) → feistelEnc P h 0 m = m ∧ feistelDec P h 0 m = m) ∧
    (∀ m : Word, m.toNat < 2 ^ (2 * 0) ↔ m = 0#64) ∧
    ∀ r : Nat, feistelEnc P 0 r 0#64 = 0#64 ∧ feistelDec P 0 r 0#64 = 0#64

/-- 41_feistel.md R149: one round and two rounds in closed form, in numbers. -/
def Obligations.FeistelClosedForms : Prop :=
  ∀ (P : Params) (h : Nat) (m : Word), h ≤ 32 → m.toNat < 2 ^ (2 * h) →
    let L := m.toNat / 2 ^ h
    let R := m.toNat % 2 ^ h
    let F (i v : Nat) : Nat := (mix P (BitVec.ofNat 64 v) (P.rc i)).toNat % 2 ^ h
    let N1 := L ^^^ F 0 R
    (feistelEnc P h 1 m).toNat = R * 2 ^ h + (L ^^^ F 0 R) ∧
    (feistelDec P h 1 m).toNat = (R ^^^ F 0 L) * 2 ^ h + L ∧
    (feistelEnc P h 2 m).toNat = N1 * 2 ^ h + (R ^^^ F 1 N1)

/-! ## The cycle walker -/

/-- 42_range.md R171: both walks stop, at the first return, after at most `2^(2h) - size + 1` applications. -/
def Obligations.WalksTerminateWithinTheBound : Prop :=
  ∀ (P : Params) (h r : Nat) (size x0 : Word), h ≤ 32 → size.toNat ≤ 2 ^ (2 * h) → x0 < size →
    (∃ y n, walkEnc P h r size x0 = some (y, n) ∧ FirstReturn (feistelEnc P h r) size x0 y n ∧
      n ≤ 2 ^ (2 * h) - size.toNat + 1) ∧
    ∃ y n, walkDec P h r size x0 = some (y, n) ∧ FirstReturn (feistelDec P h r) size x0 y n ∧
      n ≤ 2 ^ (2 * h) - size.toNat + 1

/-- 42_range.md R174: each walk inverts the other, in the same number of iterations. -/
def Obligations.WalksInvertEachOther : Prop :=
  ∀ (P : Params) (h r : Nat) (size x0 : Word), h ≤ 32 → size.toNat ≤ 2 ^ (2 * h) → x0 < size →
    (∃ y n, walkEnc P h r size x0 = some (y, n) ∧ walkDec P h r size y = some (x0, n)) ∧
    ∃ y n, walkDec P h r size x0 = some (y, n) ∧ walkEnc P h r size y = some (x0, n)

/-- 42_range.md R169: the walk applies the cipher at least once and answers the first value inside the range, whatever the
fuel that makes the definition structural: a larger fuel never changes an answer. -/
def Obligations.WalkAnswersTheFirstReturn : Prop :=
  ∀ (f : Word → Word) (size x y : Word) (fuel n : Nat), walk f size fuel x = some (y, n) →
    FirstReturn f size x y n ∧ ∀ more, walk f size (fuel + more) x = some (y, n)

/-! ## The configuration commands -/

/-- 42_range.md R166: `w` is the smallest width with `2^w >= size`, 0 for `size = 1`, at most 64. -/
def Obligations.RangeWidthIsTheSmallest : Prop :=
  (∀ size : Word, 1 ≤ size.toNat →
    size.toNat ≤ 2 ^ rangeWidth size ∧ (∀ n, size.toNat ≤ 2 ^ n → rangeWidth size ≤ n) ∧ rangeWidth size ≤ 64) ∧
  rangeWidth 1#64 = 0

/-- 42_range.md R167: the derived width covers the range, and is not wasteful. -/
def Obligations.DerivedWidthCoversTheRange : Prop :=
  ∀ size : Word, 1 ≤ size.toNat →
    let w := rangeWidth size
    let h := halfWidthOf w
    size.toNat ≤ 2 ^ w ∧ 2 ^ w ≤ 2 ^ (2 * h) ∧ (1 ≤ w → 2 ^ (w - 1) < size.toNat) ∧
    (2 ≤ size.toNat → 2 ^ (2 * h) < 4 * size.toNat) ∧
    (2 ≤ size.toNat → w % 2 = 0 → 2 ^ (2 * h) < 2 * size.toNat)

/-- 42_range.md R168: the encoding of `CFG_RANGE`; it completes with the derived configuration, every register it does not
write unchanged; or with its two errors, which clear both valid bits and change no configuration register. -/
def Obligations.CfgRangeConfigures : Prop :=
  ∀ (s : State) (r : Nat),
    (r ≤ 255 → decode (BitVec.ofNat 64 (256 * r + 0x1)) = .ok (.cfgRange r)) ∧
    (s.latch.a < s.latch.b → r ≤ Config.params.numRc →
      ∃ c : CfgRegs, c.min = s.latch.a ∧ c.size.toNat = s.latch.b.toNat - s.latch.a.toNat ∧
        c.geom.w.toNat = bitlen (c.size - 1#64) ∧ c.geom.h.toNat = (c.geom.w.toNat + 1) / 2 ∧
        c.geom.rounds.toNat = r ∧ c.halfMask.toNat = 2 ^ c.geom.h.toNat - 1 ∧
        exec (.cfgRange r) s = .next { s with
          cfg := c
          iterCount := 0#64
          status := { s.status with
            busy := false, done := true, err := .ok, rangeValid := true, feistelValid := true } }) ∧
    (s.latch.b ≤ s.latch.a →
      exec (.cfgRange r) s = .next { s with
        iterCount := 0#64
        status := { s.status with
          busy := false, done := true, err := .rangeEmpty, rangeValid := false, feistelValid := false } }) ∧
    (s.latch.a < s.latch.b → Config.params.numRc < r →
      exec (.cfgRange r) s = .next { s with
        iterCount := 0#64
        status := { s.status with
          busy := false, done := true, err := .roundsExceedTable, rangeValid := false, feistelValid := false } })

/-- 41_feistel.md R146: the encoding of `CFG_FEISTEL`; it completes with the configuration of R135 to R137, every register it
does not write unchanged; or with its two errors, which clear both valid bits and change no configuration register. -/
def Obligations.CfgFeistelConfigures : Prop :=
  ∀ (s : State) (r : Nat),
    (r ≤ 255 → decode (BitVec.ofNat 64 (256 * r + 0x2)) = .ok (.cfgFeistel r)) ∧
    (s.latch.a.toNat ≤ 64 → r ≤ Config.params.numRc →
      ∃ c : CfgRegs, c.min = 0#64 ∧ c.size = 0#64 ∧ c.geom.w.toNat = s.latch.a.toNat ∧
        c.geom.h.toNat = (s.latch.a.toNat + 1) / 2 ∧ c.geom.rounds.toNat = r ∧
        c.halfMask.toNat = 2 ^ c.geom.h.toNat - 1 ∧
        exec (.cfgFeistel r) s = .next { s with
          cfg := c
          iterCount := 0#64
          status := { s.status with
            busy := false, done := true, err := .ok, rangeValid := false, feistelValid := true } }) ∧
    (64 < s.latch.a.toNat →
      exec (.cfgFeistel r) s = .next { s with
        iterCount := 0#64
        status := { s.status with
          busy := false, done := true, err := .bitsTooWide, rangeValid := false, feistelValid := false } }) ∧
    (s.latch.a.toNat ≤ 64 → Config.params.numRc < r →
      exec (.cfgFeistel r) s = .next { s with
        iterCount := 0#64
        status := { s.status with
          busy := false, done := true, err := .roundsExceedTable, rangeValid := false, feistelValid := false } })

/-- 41_feistel.md R150: `2k - 1` and `2k` have the same half width; `CFG_FEISTEL` with one or the other configures the same
but for `CFG_GEOM.W`, and `FEISTEL_ENC` then gives the same result on every operand. -/
def Obligations.SameHalfWidthSamePermutation : Prop :=
  (∀ k, 1 ≤ k → halfWidthOf (2 * k - 1) = k ∧ halfWidthOf (2 * k) = k) ∧
  ∀ (s : State) (k r : Nat), 1 ≤ k → k ≤ 32 → r ≤ Config.params.numRc →
    ∃ t u, exec (.cfgFeistel r) { s with latch := { s.latch with a := BitVec.ofNat 64 (2 * k - 1) } } = .next t ∧
      exec (.cfgFeistel r) { s with latch := { s.latch with a := BitVec.ofNat 64 (2 * k) } } = .next u ∧
      u.cfg = { t.cfg with geom := { t.cfg.geom with w := BitVec.ofNat 7 (2 * k) } } ∧
      t.cfg.geom.w = BitVec.ofNat 7 (2 * k - 1) ∧ t.cfg.geom.h.toNat = k ∧
      ∀ m : Word, ∃ t' u', exec .feistelEnc (accept (encode .feistelEnc) { t with opa := m }) = .next t' ∧
        exec .feistelEnc (accept (encode .feistelEnc) { u with opa := m }) = .next u' ∧
        t'.result = u'.result ∧ t'.status.err = u'.status.err

/-! ## The commands that compute -/

/-- 41_feistel.md R147: the encoding of `FEISTEL_ENC`, one application of the forward function on an operand in the domain,
every register it does not write unchanged, and its two errors. -/
def Obligations.FeistelEncCompletes : Prop :=
  ∀ s : State,
    decode 0x5#64 = .ok .feistelEnc ∧
    (s.latch.feistelValid = true → s.latch.a.toNat < 2 ^ (2 * s.latch.cfg.geom.h.toNat) →
      exec .feistelEnc s = .next { s with
        result := feistelEnc Config.params s.latch.cfg.geom.h.toNat s.latch.cfg.geom.rounds.toNat s.latch.a
        iterCount := 1#64
        status := { s.status with busy := false, done := true, err := .ok } }) ∧
    (s.latch.feistelValid = false →
      exec .feistelEnc s = .next { s with
        iterCount := 0#64
        status := { s.status with busy := false, done := true, err := .notConfigured } }) ∧
    (s.latch.feistelValid = true → 2 ^ (2 * s.latch.cfg.geom.h.toNat) ≤ s.latch.a.toNat →
      exec .feistelEnc s = .next { s with
        iterCount := 0#64
        status := { s.status with busy := false, done := true, err := .outOfDomain } })

/-- 41_feistel.md R148: the encoding of `FEISTEL_DEC`, one application of the inverse function, and its two errors. -/
def Obligations.FeistelDecCompletes : Prop :=
  ∀ s : State,
    decode 0x6#64 = .ok .feistelDec ∧
    (s.latch.feistelValid = true → s.latch.a.toNat < 2 ^ (2 * s.latch.cfg.geom.h.toNat) →
      exec .feistelDec s = .next { s with
        result := feistelDec Config.params s.latch.cfg.geom.h.toNat s.latch.cfg.geom.rounds.toNat s.latch.a
        iterCount := 1#64
        status := { s.status with busy := false, done := true, err := .ok } }) ∧
    (s.latch.feistelValid = false →
      exec .feistelDec s = .next { s with
        iterCount := 0#64
        status := { s.status with busy := false, done := true, err := .notConfigured } }) ∧
    (s.latch.feistelValid = true → 2 ^ (2 * s.latch.cfg.geom.h.toNat) ≤ s.latch.a.toNat →
      exec .feistelDec s = .next { s with
        iterCount := 0#64
        status := { s.status with busy := false, done := true, err := .outOfDomain } })

/-- 41_feistel.md R148's worked example, for every Feistel configuration a command can build: `FEISTEL_ENC` on `m`, then
`FEISTEL_DEC` on its `RESULT` accepted with the same configuration, gives `m`. -/
def Obligations.FeistelCommandsInvertEachOther : Prop :=
  ∀ (s : State) (m : Word), s.CfgInv Config.params → s.status.feistelValid = true →
    m.toNat < 2 ^ (2 * s.cfg.geom.h.toNat) →
    ∃ t u, exec .feistelEnc (accept (encode .feistelEnc) { s with opa := m }) = .next t ∧
      exec .feistelDec (accept (encode .feistelDec) { t with opa := t.result }) = .next u ∧
      u.result = m ∧ u.status.err = .ok ∧ u.iterCount = 1#64 ∧ u.cfg = s.cfg

/-- 42_range.md R175: the encoding of `RANGE_ENC`; with a range configuration a command can build and the operand in the
range, it completes with the first return of the Feistel core plus `min` and the number of applications, neither wrapping,
every register it does not write unchanged; and its two errors. -/
def Obligations.RangeEncCompletes : Prop :=
  ∀ s : State,
    decode 0x3#64 = .ok .rangeEnc ∧
    (s.LatchInv Config.params → s.latch.rangeValid = true → s.latch.cfg.min.toNat ≤ s.latch.a.toNat →
      s.latch.a.toNat < s.latch.cfg.min.toNat + s.latch.cfg.size.toNat →
      ∃ (x v c : Word) (n : Nat),
        FirstReturn (feistelEnc Config.params s.latch.cfg.geom.h.toNat s.latch.cfg.geom.rounds.toNat)
          s.latch.cfg.size (s.latch.a - s.latch.cfg.min) x n ∧
        v.toNat = x.toNat + s.latch.cfg.min.toNat ∧ c.toNat = n ∧
        exec .rangeEnc s = .next { s with
          result := v
          iterCount := c
          status := { s.status with busy := false, done := true, err := .ok } }) ∧
    (s.latch.rangeValid = false →
      exec .rangeEnc s = .next { s with
        iterCount := 0#64
        status := { s.status with busy := false, done := true, err := .notConfigured } }) ∧
    (s.latch.rangeValid = true →
      s.latch.a.toNat < s.latch.cfg.min.toNat ∨
        s.latch.cfg.size.toNat ≤ s.latch.a.toNat - s.latch.cfg.min.toNat →
      exec .rangeEnc s = .next { s with
        iterCount := 0#64
        status := { s.status with busy := false, done := true, err := .outOfDomain } })

/-- 42_range.md R176: the same with the inverse walk, and the result is the one `i` that `RANGE_ENC` maps to the operand. -/
def Obligations.RangeDecCompletes : Prop :=
  ∀ s : State,
    decode 0x4#64 = .ok .rangeDec ∧
    (s.LatchInv Config.params → s.latch.rangeValid = true → s.latch.cfg.min.toNat ≤ s.latch.a.toNat →
      s.latch.a.toNat < s.latch.cfg.min.toNat + s.latch.cfg.size.toNat →
      ∃ (y v c : Word) (n : Nat),
        FirstReturn (feistelDec Config.params s.latch.cfg.geom.h.toNat s.latch.cfg.geom.rounds.toNat)
          s.latch.cfg.size (s.latch.a - s.latch.cfg.min) y n ∧
        v.toNat = y.toNat + s.latch.cfg.min.toNat ∧ c.toNat = n ∧
        exec .rangeDec s = .next { s with
          result := v
          iterCount := c
          status := { s.status with busy := false, done := true, err := .ok } } ∧
        ∀ (i : Word) (t : State), exec .rangeEnc { s with latch := { s.latch with a := i } } = .next t →
          t.status.err = .ok → (t.result = s.latch.a ↔ i = v)) ∧
    (s.latch.rangeValid = false →
      exec .rangeDec s = .next { s with
        iterCount := 0#64
        status := { s.status with busy := false, done := true, err := .notConfigured } }) ∧
    (s.latch.rangeValid = true →
      s.latch.a.toNat < s.latch.cfg.min.toNat ∨
        s.latch.cfg.size.toNat ≤ s.latch.a.toNat - s.latch.cfg.min.toNat →
      exec .rangeDec s = .next { s with
        iterCount := 0#64
        status := { s.status with busy := false, done := true, err := .outOfDomain } })

/-- 42_range.md R173: for a range configuration a command can build, `RANGE_ENC` is a bijection of `[min, max)`, the one
that `feistel_enc` induces by first return. -/
def Obligations.RangeEncPermutesTheRange : Prop :=
  ∀ s : State, s.LatchInv Config.params → s.latch.rangeValid = true →
    let inside : Set Word := {i | s.latch.cfg.min.toNat ≤ i.toNat ∧
      i.toNat < s.latch.cfg.min.toNat + s.latch.cfg.size.toNat}
    ∃ g : Word → Word, Set.BijOn g inside inside ∧
      ∀ i ∈ inside, ∃ t n, exec .rangeEnc { s with latch := { s.latch with a := i } } = .next t ∧
        t.status.err = .ok ∧ t.result = g i ∧
        FirstReturn (feistelEnc Config.params s.latch.cfg.geom.h.toNat s.latch.cfg.geom.rounds.toNat)
          s.latch.cfg.size (i - s.latch.cfg.min) (g i - s.latch.cfg.min) n

/-- 42_range.md R176's worked example, for every range configuration a command can build: `RANGE_ENC` on `i`, then
`RANGE_DEC` on its `RESULT` accepted with the same configuration, gives `i` and the same `ITER_COUNT`. -/
def Obligations.RangeCommandsInvertEachOther : Prop :=
  ∀ (s : State) (i : Word), s.CfgInv Config.params → s.status.rangeValid = true →
    s.cfg.min.toNat ≤ i.toNat → i.toNat < s.cfg.min.toNat + s.cfg.size.toNat →
    ∃ t u, exec .rangeEnc (accept (encode .rangeEnc) { s with opa := i }) = .next t ∧
      exec .rangeDec (accept (encode .rangeDec) { t with opa := t.result }) = .next u ∧
      u.result = i ∧ u.iterCount = t.iterCount ∧ 1 ≤ u.iterCount.toNat ∧ u.status.err = .ok ∧ u.cfg = s.cfg

/-- 42_range.md R177: the single-element range. -/
def Obligations.SingleElementRange : Prop :=
  ∀ s : State, s.LatchInv Config.params → s.latch.rangeValid = true → s.latch.cfg.size = 1#64 →
    s.latch.a = s.latch.cfg.min →
    s.latch.cfg.geom.w = 0#7 ∧ s.latch.cfg.geom.h = 0#6 ∧
    feistelDomain s.latch.cfg.geom.h.toNat = {0#64} ∧
    ∀ i, i = Instr.rangeEnc ∨ i = Instr.rangeDec →
      exec i s = .next { s with
        result := s.latch.cfg.min
        iterCount := 1#64
        status := { s.status with busy := false, done := true, err := .ok } }

/-- 42_range.md R178: when the range fills the Feistel domain each walk takes exactly one iteration. -/
def Obligations.FullDomainRangeTakesOneIteration : Prop :=
  ∀ s : State, s.LatchInv Config.params → s.latch.rangeValid = true →
    s.latch.cfg.size.toNat = 2 ^ (2 * s.latch.cfg.geom.h.toNat) → s.latch.cfg.min.toNat ≤ s.latch.a.toNat →
    s.latch.a.toNat < s.latch.cfg.min.toNat + s.latch.cfg.size.toNat →
    ∃ t u, exec .rangeEnc s = .next t ∧ exec .rangeDec s = .next u ∧
      t.iterCount = 1#64 ∧ u.iterCount = 1#64 ∧
      t.result.toNat = (feistelEnc Config.params s.latch.cfg.geom.h.toNat s.latch.cfg.geom.rounds.toNat
        (s.latch.a - s.latch.cfg.min)).toNat + s.latch.cfg.min.toNat ∧
      u.result.toNat = (feistelDec Config.params s.latch.cfg.geom.h.toNat s.latch.cfg.geom.rounds.toNat
        (s.latch.a - s.latch.cfg.min)).toNat + s.latch.cfg.min.toNat

/-- 42_range.md R179: the largest range `[0, 2^64 - 1)` has `w = 64`, `h = 32`, and its walks take at most two
iterations. -/
def Obligations.LargestRange : Prop :=
  (∀ (s : State) (r : Nat), s.latch.a = 0#64 → s.latch.b.toNat = 2 ^ 64 - 1 → r ≤ Config.params.numRc →
    ∃ t, exec (.cfgRange r) s = .next t ∧ t.cfg.size.toNat = 2 ^ 64 - 1 ∧ t.cfg.geom.w.toNat = 64 ∧
      t.cfg.geom.h.toNat = 32) ∧
  ∀ (P : Params) (r : Nat) (size x0 : Word), size.toNat = 2 ^ 64 - 1 → x0 < size →
    ∃ y z n m, walkEnc P 32 r size x0 = some (y, n) ∧ walkDec P 32 r size x0 = some (z, m) ∧ n ≤ 2 ∧ m ≤ 2

/-! ## Completions and errors -/

/-- 60_exceptions.md R202: whatever command ends in an error completion, it changes only `ERR`, `ITER_COUNT`, `BUSY`,
`DONE` and, for the codes 2, 3 and 4, both valid bits. -/
def Obligations.ErrorCompletionEffect : Prop :=
  ∀ (w : Word) (s t : State), completeCommand w s = .next t → t.status.err ≠ .ok →
    t = { s with
      iterCount := 0#64
      status := { s.status with
        busy := false
        done := true
        err := t.status.err
        rangeValid := if 2 ≤ t.status.err.bits.toNat ∧ t.status.err.bits.toNat ≤ 4 then false
          else s.status.rangeValid
        feistelValid := if 2 ≤ t.status.err.bits.toNat ∧ t.status.err.bits.toNat ≤ 4 then false
          else s.status.feistelValid } }

/-- 30_encoding.md R108 and R111: whatever command ends in a success completion, it changes only `ERR`, `BUSY`, `DONE`,
`ITER_COUNT` and the writes its rule lists: a configuration command the configuration registers and valid bits, every
other command `RESULT`. -/
def Obligations.SuccessCompletionEffect : Prop :=
  ∀ (i : Instr) (s t : State), exec i s = .next t → t.status.err = .ok →
    t = { s with
      iterCount := t.iterCount
      result := if i.isCompute then t.result else s.result
      cfg := if i.isCompute then s.cfg else t.cfg
      status := { s.status with
        busy := false
        done := true
        err := .ok
        rangeValid := if i.isCompute then s.status.rangeValid else t.status.rangeValid
        feistelValid := if i.isCompute then s.status.feistelValid else t.status.feistelValid } } ∧
    (i.isCompute = false → t.iterCount = 0#64)

/-- 60_exceptions.md R211: the code of a completion, for every command and every state, in the order of the checks. -/
def Obligations.ErrorPriority : Prop :=
  (∀ (w : Word) (s t : State), ¬ LegalWord w → completeCommand w s = .next t → t.status.err = .illegalCmd) ∧
  (∀ (s t : State) (r : Nat), exec (.cfgRange r) s = .next t →
    t.status.err = if s.latch.b.toNat ≤ s.latch.a.toNat then .rangeEmpty
      else if Config.params.numRc < r then .roundsExceedTable else .ok) ∧
  (∀ (s t : State) (r : Nat), exec (.cfgFeistel r) s = .next t →
    t.status.err = if 64 < s.latch.a.toNat then .bitsTooWide
      else if Config.params.numRc < r then .roundsExceedTable else .ok) ∧
  (∀ (s t : State) (i : Instr), i = .rangeEnc ∨ i = .rangeDec → exec i s = .next t →
    t.status.err = if s.latch.rangeValid = false then .notConfigured
      else if s.latch.a.toNat < s.latch.cfg.min.toNat ∨
        s.latch.cfg.size.toNat ≤ s.latch.a.toNat - s.latch.cfg.min.toNat then .outOfDomain else .ok) ∧
  ∀ (s t : State) (i : Instr), i = .feistelEnc ∨ i = .feistelDec → exec i s = .next t →
    t.status.err = if s.latch.feistelValid = false then .notConfigured
      else if 2 ^ (2 * s.latch.cfg.geom.h.toNat) ≤ s.latch.a.toNat then .outOfDomain else .ok

/-- 60_exceptions.md R209: after a configuration error no configuration register has changed, both valid bits are 0, and
every encode or decode command accepted next ends in `NOT_CONFIGURED`, computes nothing and leaves the valid bits 0. -/
def Obligations.ConfigurationErrorInvalidates : Prop :=
  ∀ (i : Instr) (s t : State), exec i s = .next t →
    t.status.err = .rangeEmpty ∨ t.status.err = .roundsExceedTable ∨ t.status.err = .bitsTooWide →
    t.cfg = s.cfg ∧ t.status.rangeValid = false ∧ t.status.feistelValid = false ∧
    ∀ (j : Instr) (m : Word), j.isCompute = true →
      ∃ u, exec j (accept (encode j) { t with opa := m }) = .next u ∧ u.status.err = .notConfigured ∧
        u.result = s.result ∧ u.status.rangeValid = false ∧ u.status.feistelValid = false

/-- 60_exceptions.md R210. -/
def Obligations.UsageErrorsKeepTheConfiguration : Prop :=
  ∀ (w : Word) (s t : State), completeCommand w s = .next t →
    t.status.err = .illegalCmd ∨ t.status.err = .notConfigured ∨ t.status.err = .outOfDomain →
    t.cfg = s.cfg ∧ t.status.rangeValid = s.status.rangeValid ∧
    t.status.feistelValid = s.status.feistelValid ∧ t.result = s.result

/-- 00_scope.md R5: an encode or decode depends on the latched configuration and the latched operand alone. -/
def Obligations.ResultDependsOnConfigurationAndOperand : Prop :=
  ∀ (i : Instr) (s s' t t' : State), i.isCompute = true → s.latch.cfg = s'.latch.cfg →
    s.latch.rangeValid = s'.latch.rangeValid → s.latch.feistelValid = s'.latch.feistelValid →
    s.latch.a = s'.latch.a → exec i s = .next t → exec i s' = .next t' →
    t.status.err = t'.status.err ∧ t.iterCount = t'.iterCount ∧ (t.status.err = .ok → t.result = t'.result)

/-! ## The step of the machine -/

/-- With the engine's turn next and a command in flight whose word decodes to `i`, the step is `exec i`, the turn taken
off the inputs; with no input left the engine has its turn too (log 2). -/
def Obligations.StepRunsTheDecodedCommand : Prop :=
  ∀ (s : State) (i : Instr) (rest : List Input), s.rstN = true → s.status.busy = true →
    decode s.latch.cmd = .ok i →
    (s.inputs = .engine :: rest → step s = exec i { s with inputs := rest }) ∧
    (s.inputs = [] → step s = exec i s)

/-- A table word placed by `withFetchWord` is what the very next step runs (log 17). -/
def Obligations.PlacedCommandRunsNext : Prop :=
  ∀ (s : State) (nbits w : Nat) (i : Instr), decodeTableWord nbits w = some i →
    step (s.withFetchWord nbits w) = exec i { s.withFetchWord nbits w with inputs := s.inputs }

/-- 10_state.md R62: the invariants of the configuration registers hold at reset, every completion keeps them, and so does
every step. -/
def Obligations.ConfigurationStaysConsistent : Prop :=
  State.reset.CfgInv Config.params ∧
  (∀ (w : Word) (s t : State), s.CfgInv Config.params → completeCommand w s = .next t → t.CfgInv Config.params) ∧
  ∀ s t : State, s.CfgInv Config.params → step s = .next t → t.CfgInv Config.params

/-- The invariant of the whole state holds at reset. -/
def Obligations.ResetMeetsTheInvariant : Prop := State.reset.Inv Config.params

/-- Every step keeps the invariant of the whole state: consistent configuration registers, copies of a command in flight
equal to the registers, `DONE` and `ERR` clear in flight, every register at its reset value while `rst_n` is
asserted (the model's values of log 8 and log 9 among them). -/
def Obligations.StepKeepsTheInvariant : Prop :=
  ∀ s t : State, s.Inv Config.params → step s = .next t → t.Inv Config.params

/-- 70_reset_and_hazards.md R243: an accepted command completes when the engine has its turn, whatever and however many
defined host accesses come before it. -/
def Obligations.AcceptedCommandCompletes : Prop :=
  ∀ (s : State) (accesses : List Input), s.Inv Config.params → s.rstN = true → s.status.busy = true →
    (∀ e ∈ accesses, e.isDefinedAccess = true) → s.inputs = accesses ++ [.engine] →
    ∃ t, core.run (accesses.length + 1) s = .next t ∧ t.status.busy = false ∧ t.status.done = true ∧
      t.inputs = []

/-- 70_reset_and_hazards.md R245: every defined host access is answered while a command is in flight. -/
def Obligations.BusAnsweredWhileBusy : Prop :=
  ∀ (s : State) (e : Input), s.rstN = true → s.status.busy = true → e.isDefinedAccess = true →
    ∃ t, applyInput e s = .next t ∧ t.status.busy = true ∧ t.reply ≠ .idle

/-- 10_state.md R32, 70_reset_and_hazards.md R238, 30_encoding.md R107: no host access changes an output register, a
configuration register or a valid bit; and while a command is in flight none changes the copies or the read value of
`CMD`, `BUSY` stays 1 and `ERR` reads 0. -/
def Obligations.HostAccessesWriteNoOutput : Prop :=
  ∀ (s t : State) (e : Input), e.isHostAccess = true → applyInput e s = .next t →
    (t.result = s.result ∧ t.iterCount = s.iterCount ∧ t.cfg = s.cfg ∧
      t.status.rangeValid = s.status.rangeValid ∧ t.status.feistelValid = s.status.feistelValid) ∧
    (s.Inv Config.params → s.status.busy = true →
      t.status.err = .ok ∧ t.status.busy = true ∧ t.latch = s.latch ∧ t.cmdLast = s.cmdLast)

/-- 70_reset_and_hazards.md R237: a write of `OPA` or `OPB` while a command is in flight changes the register and not the
command: its completion is the same but for the two registers. -/
def Obligations.OperandWritesDoNotDisturb : Prop :=
  ∀ (s t : State) (i : Instr) (v w : Word), exec i s = .next t →
    exec i { s with opa := v, opb := w } = .next { t with opa := v, opb := w }

/-- 60_exceptions.md R212, 20_memory.md R89, R90, and program P5: a `CMD` write ordered after a completion is accepted on
the state the completion left; ordered before it, it is dropped with `OVR` set and the command in flight completes. -/
def Obligations.BothOrdersOfCompletionAndCommand : Prop :=
  ∀ (s t : State) (v : Word), s.rstN = true → s.status.busy = true → s.inputs = [] → engineTurn s = .next t →
    core.run 2 { s with inputs := [.engine, .write 0x10#7 64 v] } =
      .next { accept v t with reply := .written } ∧
    core.run 2 { s with inputs := [.write 0x10#7 64 v, .engine] } =
      .next { t with status := { t.status with ovr := true }, reply := .written }

/-! ## The host syntax -/

/-- 30_encoding.md R109, R110: the expansions, the default of `prange`, and what the assembler refuses. -/
def Obligations.PseudoInstructionsExpand : Prop :=
  (∀ (mn mx v : Word) (r : Nat), r ≤ 255 →
    (Pseudo.prange mn mx (some r)).expand =
      some [.wr .opa mn, .wr .opb mx, .wr .cmd (BitVec.ofNat 64 (256 * r + 1)), .wait] ∧
    (Pseudo.prange mn mx none).expand = some [.wr .opa mn, .wr .opb mx, .wr .cmd 0x301#64, .wait] ∧
    (Pseudo.pfeistel v r).expand = some [.wr .opa v, .wr .cmd (BitVec.ofNat 64 (256 * r + 2)), .wait] ∧
    (Pseudo.penc v).expand = some [.wr .opa v, .wr .cmd 3#64, .wait, .rd .result] ∧
    (Pseudo.pdec v).expand = some [.wr .opa v, .wr .cmd 4#64, .wait, .rd .result] ∧
    (Pseudo.pfenc v).expand = some [.wr .opa v, .wr .cmd 5#64, .wait, .rd .result] ∧
    (Pseudo.pfdec v).expand = some [.wr .opa v, .wr .cmd 6#64, .wait, .rd .result] ∧
    Pseudo.pcheck.expand = some [.rd .status]) ∧
  ∀ (mn mx v : Word) (r : Nat), 255 < r →
    (Pseudo.prange mn mx (some r)).expand = none ∧ (Pseudo.pfeistel v r).expand = none
end

