-- ==== Sys2Proof/Laws/PerInstr.lean ====
section
/-! SUPPORT. Facts about every command, one lemma per constructor. -/

namespace Sys2Proof.Laws.LegalOp

/-- The `OP` value of a command is one of 0x1 to 0x6, and only the configuration commands use the `ROUNDS` field
(spec/30_encoding.md R100, R101). -/
def Statement (i : Instr) : Prop :=
  1 ≤ i.op.toNat ∧ i.op.toNat ≤ 6 ∧ (3 ≤ i.op.toNat → i.roundsBits = 0#8)

theorem cfgRange (rounds : Nat) : Statement (.cfgRange rounds) := by simp [Statement, Instr.op]

theorem cfgFeistel (rounds : Nat) : Statement (.cfgFeistel rounds) := by simp [Statement, Instr.op]

theorem rangeEnc : Statement .rangeEnc := by simp [Statement, Instr.op, Instr.roundsBits]

theorem rangeDec : Statement .rangeDec := by simp [Statement, Instr.op, Instr.roundsBits]

theorem feistelEnc : Statement .feistelEnc := by simp [Statement, Instr.op, Instr.roundsBits]

theorem feistelDec : Statement .feistelDec := by simp [Statement, Instr.op, Instr.roundsBits]

end Sys2Proof.Laws.LegalOp
end

