-- ==== Sys2Proof/Tests/Slice0.lean ====
section
/-! SUPPORT. The model's own tests. Expected values come from spec/95_test_vectors.md (the section stands at each test) or are
written out from the spec's encodings; the illustrative parameters EX are not the hardware's. Then one witness per statement
with hypotheses: a concrete state and operands that meet them together. -/

namespace Sys2Proof.Tests

open Sys2Proof.Machine

/-! ## WellFormed: an ill-formed term for its one check (30_encoding.md R109), and the boundary -/

theorem test_wellFormed_refuses_cfgRange_256 : Instr.wellFormed (.cfgRange 256) = false := by decide

theorem test_wellFormed_refuses_cfgFeistel_256 : Instr.wellFormed (.cfgFeistel 256) = false := by decide

theorem test_wellFormed_takes_cfgRange_255 : Instr.wellFormed (.cfgRange 255) = true := by decide

theorem test_assemble_refuses_256 : assemble (.cfgFeistel 256) = none := by decide

/-! ## Decoding: words written bit by bit from 30_encoding.md R100, R101 -/

theorem test_decode_cfgRange_bits :
    decode 0b0000000000000000000000000000000000000000000000001010010100000001#64 = .ok (.cfgRange 0xA5) := by decide

theorem test_decode_cfgFeistel_bits :
    decode 0b0000000000000000000000000000000000000000000000000000000100000010#64 = .ok (.cfgFeistel 1) := by decide

theorem test_decode_rangeEnc_bits :
    decode 0b0000000000000000000000000000000000000000000000000000000000000011#64 = .ok .rangeEnc := by decide

theorem test_decode_rangeDec_bits :
    decode 0b0000000000000000000000000000000000000000000000000000000000000100#64 = .ok .rangeDec := by decide

theorem test_decode_feistelEnc_bits :
    decode 0b0000000000000000000000000000000000000000000000000000000000000101#64 = .ok .feistelEnc := by decide

theorem test_decode_feistelDec_bits :
    decode 0b0000000000000000000000000000000000000000000000000000000000000110#64 = .ok .feistelDec := by decide

/-- 95_test_vectors.md V1: the illegal words. -/
theorem test_decode_illegal :
    ([0x0#64, 0x7#64, 0xF#64, 0x13#64, 0x103#64, 0x10001#64, 0x8000000000000005#64].map decode) =
      [.error .reservedOp, .error .reservedOp, .error .reservedOp, .error .reservedBitsSet,
       .error .roundsOnNonConfig, .error .reservedBitsSet, .error .reservedBitsSet] := by decide

theorem test_decodeTableWord_cfgFeistel : decodeTableWord 64 0x302 = some (.cfgFeistel 3) := by decide

/-! ## The arithmetic under the illustrative parameters EX (95_test_vectors.md section 3) -/

/-- The set EX; not the hardware's parameters. -/
def EX : Params where
  numRc := 12
  rc := fun i => BitVec.ofNat 64 ((i + 1) * 0x9E3779B97F4A7C15)
  mixS1 := 12
  mixS2 := 25
  mixS3 := 27
  mixM := 0x2545F4914F6CDD1D#64
  fpeBase := 0x1000
  numRc_ge := by decide
  numRc_le := by decide
  mixS1_ge := by decide
  mixS1_le := by decide
  mixS2_ge := by decide
  mixS2_le := by decide
  mixS3_ge := by decide
  mixS3_le := by decide
  mixM_odd := by decide
  fpeBase_aligned := by decide

/-- V8. -/
theorem test_mix_EX :
    mix EX 1#64 0#64 = 0x47E4CE4B896CDD1D#64 ∧ mix EX 1#64 2#64 = 0xD7AE6AE29C469757#64 ∧
    mix EX 0xFFFFFFFFFFFFFFFF#64 1#64 = 0#64 ∧ mix EX 0x123456789ABCDEF0#64 0#64 = 0xB7FB0288C5EE4339#64 ∧
    mix EX 3#64 (EX.rc 1) = 0x1A773290C2D5B3D7#64 := by decide

/-- V9, the table for `bits = 4`, `r = 3`. -/
theorem test_feistelEnc_table_EX :
    ((List.range 16).map fun x => (feistelEnc EX 2 3 (BitVec.ofNat 64 x)).toNat) =
      [8, 6, 13, 10, 14, 3, 11, 12, 7, 9, 1, 5, 2, 15, 4, 0] := by decide

theorem test_feistelDec_table_EX :
    ((List.range 16).map fun x => (feistelDec EX 2 3 (BitVec.ofNat 64 x)).toNat) =
      [15, 10, 12, 5, 14, 11, 1, 8, 0, 9, 3, 6, 7, 2, 4, 13] := by decide

/-- V9, wide blocks and the longest round count. -/
theorem test_feistel_wide_EX :
    feistelEnc EX 32 3 0x0123456789ABCDEF#64 = 0xE034518A5E247230#64 ∧
    feistelDec EX 32 3 0x0123456789ABCDEF#64 = 0x250D85CABD9AD6BD#64 ∧
    feistelEnc EX 32 1 0x100000000#64 = 0x000000009A21487B#64 ∧
    feistelEnc EX 4 12 0x5A#64 = 0x10#64 ∧ feistelDec EX 4 12 0x5A#64 = 0x8A#64 := by decide

/-- V10, the walks of `[0, 10)`, `r = 3`. -/
theorem test_walkEnc_EX :
    ((List.range 10).map fun x => (walkEnc EX 2 3 10#64 (BitVec.ofNat 64 x)).map fun p => (p.1.toNat, p.2)) =
      [some (8, 1), some (6, 1), some (0, 3), some (1, 2), some (4, 2), some (3, 1), some (5, 2), some (2, 2),
       some (7, 1), some (9, 1)] := by decide

theorem test_walkDec_EX :
    ((List.range 10).map fun x => (walkDec EX 2 3 10#64 (BitVec.ofNat 64 x)).map fun p => (p.1.toNat, p.2)) =
      [some (2, 3), some (3, 2), some (7, 2), some (5, 1), some (4, 2), some (6, 2), some (1, 1), some (8, 1),
       some (0, 1), some (9, 1)] := by decide

/-- V10, large ranges: 15 iterations in `[0, 2^20 + 7)`, and 2 in `[0, 2^64 - 1)`. -/
theorem test_walkEnc_large_EX :
    walkEnc EX 11 3 0x100007#64 1#64 = some (0x5F61B#64, 15) ∧
    walkEnc EX 32 3 0xFFFFFFFFFFFFFFFF#64 0xC94309024E078AEF#64 = some (0x123501CDDAA6E5A5#64, 2) := by decide

/-- 42_range.md R166: sizes and widths of the table. -/
theorem test_rangeWidth_table :
    ([1#64, 2#64, 3#64, 4#64, 5#64, 10#64, 16#64, 17#64, 1000#64, 0x100007#64, 0x8000000000000000#64,
      0x8000000000000001#64, 0xFFFFFFFFFFFFFFFF#64].map rangeWidth) =
      [0, 1, 2, 2, 3, 4, 4, 5, 10, 21, 63, 64, 64] := by decide

/-! ## One step of each command on a small state -/

/-- A command word in flight with operands, from the reset state. -/
def inFlight (w a b : Word) : State := accept w { State.reset with opa := a, opb := b }

/-- The registers of the range `[min, min + 10)` with 3 rounds (E1, P2). -/
def tenCfg (min : Word) : CfgRegs :=
  { min := min, size := 10#64, geom := { w := 4#7, h := 2#6, rounds := 3#8 }, halfMask := 3#64 }

/-- The reset state with that range configured. -/
def tenState (min a : Word) : State :=
  { State.reset with
    cfg := tenCfg min
    status := { Status.reset with done := true, rangeValid := true, feistelValid := true }
    opa := a }

/-- The registers of the range `[5, 6)` with 3 rounds (E2, P1). -/
def oneCfg : CfgRegs :=
  { min := 5#64, size := 1#64, geom := { w := 0#7, h := 0#6, rounds := 3#8 }, halfMask := 0#64 }

def oneState (a : Word) : State := { tenState 0#64 a with cfg := oneCfg }

/-- A range that fills its Feistel domain: `[0, 4)` with 3 rounds (V6). -/
def fourCfg : CfgRegs :=
  { min := 0#64, size := 4#64, geom := { w := 2#7, h := 1#6, rounds := 3#8 }, halfMask := 1#64 }

def fourState (a : Word) : State := { tenState 0#64 a with cfg := fourCfg }

/-- What a host reads of an outcome: `STATUS`, `RESULT`, `ITER_COUNT`, `CFG_SIZE`, `CFG_GEOM`, `CFG_HALF_MASK`. -/
def seen : Host.Outcome State Fault Refusal → List Nat
  | .next t => [t.status.toWord.toNat, t.result.toNat, t.iterCount.toNat, t.cfg.size.toNat, t.cfg.geom.toWord.toNat,
      t.cfg.halfMask.toNat]
  | .fault _ => []
  | .refused _ => []

/-- E1: `OPA = 0`, `OPB = 10`, `cfg.range #3`. -/
theorem test_cfgRange_EX : seen (cfgRange EX 3 (inFlight 0x301#64 0#64 10#64)) = [0x1A, 0, 0, 10, 0x030204, 3] := by
  decide

/-- V4: `OPA = 0`, `OPB = 10`, 13 rounds with `NUM_RC = 12`. -/
theorem test_cfgRange_rounds_EX :
    seen (cfgRange EX 13 (accept 0xD01#64 { tenState 0#64 0#64 with opb := 10#64 })) =
      [0x302, 0, 0, 10, 0x030204, 3] := by decide

/-- P6: `OPA = 64`, `cfg.feistel #1`. -/
theorem test_cfgFeistel_EX :
    seen (cfgFeistel EX 1 (inFlight 0x102#64 64#64 0#64)) = [0x12, 0, 0, 0, 0x012040, 0xFFFFFFFF] := by decide

/-- V4: `OPA = 65`, width checked first. -/
theorem test_cfgFeistel_wide : seen (execCfgFeistel 255 (accept 0xFF02#64 (tenState 0#64 65#64))) =
    [0x402, 0, 0, 10, 0x030204, 3] := by decide

/-- V10: `[0, 10)`, `RANGE_ENC(2) = 0` in 3 iterations; `[100, ...)` shifts by `min`. -/
theorem test_rangeEnc_EX :
    seen (rangeCommand (walkEnc EX) (accept 3#64 (tenState 0#64 2#64))) = [0x1A, 0, 3, 10, 0x030204, 3] ∧
    seen (rangeCommand (walkEnc EX) (accept 3#64 (tenState 100#64 103#64))) = [0x1A, 101, 2, 10, 0x030204, 3] := by
  decide

/-- V6: `[0, 10)`, `RANGE_ENC` of 10 is out of domain. -/
theorem test_rangeEnc_outOfDomain :
    seen (execRangeEnc (accept 3#64 (tenState 0#64 10#64))) = [0x61A, 0, 0, 10, 0x030204, 3] := by decide

/-- V10: `[0, 10)`, `RANGE_DEC(0) = 2` in 3 iterations. -/
theorem test_rangeDec_EX :
    seen (rangeCommand (walkDec EX) (accept 4#64 (tenState 0#64 0#64))) = [0x1A, 2, 3, 10, 0x030204, 3] := by decide

/-- V6: below `min` is out of domain. -/
theorem test_rangeDec_below_min :
    seen (execRangeDec (accept 4#64 (tenState 100#64 99#64))) = [0x61A, 0, 0, 10, 0x030204, 3] := by decide

/-- V9: `bits = 4`, `r = 3`, `feistel_enc(13) = 15`; V5: 16 is out of domain. -/
theorem test_feistelEnc_EX :
    seen (feistelCommand (feistelEnc EX) (accept 5#64 (tenState 0#64 13#64))) = [0x1A, 15, 1, 10, 0x030204, 3] ∧
    seen (execFeistelEnc (accept 5#64 (tenState 0#64 16#64))) = [0x61A, 0, 0, 10, 0x030204, 3] := by decide

/-- V9: `feistel_dec(13) = 2`; V5: after reset, not configured. -/
theorem test_feistelDec_EX :
    seen (feistelCommand (feistelDec EX) (accept 6#64 (tenState 0#64 13#64))) = [0x1A, 2, 1, 10, 0x030204, 3] ∧
    seen (execFeistelDec (inFlight 6#64 0#64 0#64)) = [0x502, 0, 0, 0, 0, 0] := by decide

/-! ## The port, reset, and the step -/

/-- V7: W1C from `STATUS = 0x1E`; only the written bits clear. -/
theorem test_status_write_one_to_clear :
    let t : Status := { busy := false, done := true, ovr := true, rangeValid := true, feistelValid := true, err := .ok }
    t.toWord = 0x1E#64 ∧ (t.writeOneToClear 0x2#64).toWord = 0x1C#64 ∧
    (t.writeOneToClear 0xFFFFFFFFFFFFFFFF#64).toWord = 0x18#64 := by decide

/-- V7: `ID` under EX is `NUM_RC | 0x400300`. -/
theorem test_id_EX : idWord EX = 0x40030C#64 := by decide

/-- V7: a 32-bit access and an access at offset 4 are bus errors. -/
theorem test_bus_errors :
    applyInput (.write 0x00#7 32 1#64) State.reset = .fault .busError ∧
    applyInput (.read 0x04#7 64) State.reset = .fault .busError := ⟨rfl, rfl⟩

/-- V7: `CTRL <- all ones` reads 1. -/
theorem test_ctrl_write : readReg EX .ctrl (writeReg .ctrl 0xFFFFFFFFFFFFFFFF#64 State.reset) = 1#64 := by decide

/-- V7: a `CMD` write while busy sets `OVR` and keeps what `CMD` reads. -/
theorem test_overrun :
    readReg EX .status (writeReg .cmd 9#64 (inFlight 3#64 0#64 0#64)) = 0x5#64 ∧
    readReg EX .cmd (writeReg .cmd 9#64 (inFlight 3#64 0#64 0#64)) = 3#64 := by decide

/-- V1: the first step after reset with a table word placed. -/
theorem test_step_from_reset :
    seen (step (State.reset.withFetchWord 64 0x3)) = [0x502, 0, 0, 0, 0, 0] ∧
    seen (step (State.reset.withFetchWord 64 0x301)) = [0x202, 0, 0, 0, 0, 0] ∧
    seen (step (State.reset.withFetchWord 64 0x103)) = [0x102, 0, 0, 0, 0, 0] := by decide

/-- R109: `wait` reads `STATUS` at least once. -/
theorem test_wait_polls : HostOp.inputs 0 .wait = [.engine, .read 0x08#7 64] := by decide

/-! ## Witnesses: each statement's hypotheses are met together -/

theorem three_le_numRc : 3 ≤ Config.params.numRc := le_trans (by decide) Config.params.numRc_ge

theorem tenCfg_consistent (min : Word) (h : min.toNat + 10 ≤ 2 ^ 64 - 1) :
    (tenCfg min).Consistent Config.params true true :=
  ⟨⟨(by decide : (2#6).toNat = ((4#7).toNat + 1) / 2), (by decide : (3#64).toNat = 2 ^ (2#6).toNat - 1)⟩,
    fun _ => ⟨(by decide : (4#7).toNat ≤ 64), three_le_numRc⟩,
    fun _ => ⟨rfl, (by decide : 1 ≤ (10#64).toNat), h, (by decide : (4#7).toNat = bitlen (10#64 - 1#64))⟩⟩

theorem oneCfg_consistent : oneCfg.Consistent Config.params true true :=
  ⟨⟨rfl, rfl⟩, fun _ => ⟨by decide, three_le_numRc⟩, fun _ => ⟨rfl, by decide, by decide, by decide⟩⟩

theorem fourCfg_consistent : fourCfg.Consistent Config.params true true :=
  ⟨⟨rfl, rfl⟩, fun _ => ⟨by decide, three_le_numRc⟩, fun _ => ⟨rfl, by decide, by decide, by decide⟩⟩

theorem witness_DecodeOfEncode : Instr.wellFormed (.cfgRange 255) = true := by decide

theorem witness_EncodeOfDecode : decode 0xFF02#64 = .ok (.cfgFeistel 255) := by decide

theorem witness_LegalWordsExactly :
    ¬ LegalWord 0x103#64 ∧ State.reset.rstN = true ∧ State.reset.status.busy = false ∧
    (inFlight 0x103#64 0#64 0#64).rstN = true ∧ (inFlight 0x103#64 0#64 0#64).status.busy = true ∧
    (inFlight 0x103#64 0#64 0#64).latch.cmd = 0x103#64 := by
  refine ⟨?_, rfl, rfl, rfl, rfl, rfl⟩
  rintro ⟨-, -, -, -, h⟩
  exact absurd (h (by decide)) (by decide)

theorem witness_RoundsFieldIsUnscaled :
    decode 0xFF01#64 = .ok (.cfgRange 255) ∧ (255 : Nat) ≤ 255 ∧ Config.params.numRc < 256 ∧
    (inFlight 1#64 0#64 1#64).latch.a < (inFlight 1#64 0#64 1#64).latch.b ∧
    (inFlight 1#64 64#64 0#64).latch.a.toNat ≤ 64 :=
  ⟨by decide, le_rfl, Nat.lt_of_le_of_lt Config.params.numRc_le (by decide), by decide, by decide⟩

/-- For `HostWriteEffects`, `WindowReads`, `ReservedOffsets`, `AcceptCopiesOperandsAndConfiguration`: out of reset, idle and
busy, at the ends of the offset range. -/
theorem witness_HostWriteEffects :
    State.reset.rstN = true ∧ State.reset.status.busy = false ∧ (inFlight 3#64 0#64 0#64).status.busy = true ∧
    (inFlight 3#64 0#64 0#64).rstN = true ∧ 0x28 ≤ (0x28#7).toNat ∧ (0x28#7).toNat % 8 = 0 ∧
    0x28 ≤ (0x78#7).toNat ∧ (0x78#7).toNat % 8 = 0 := by decide

theorem witness_ReservedOffsets : State.reset.rstN = true ∧ ((0x78#7) = 0x60#7 ∨ (0x78#7) = 0x68#7 ∨
    (0x78#7) = 0x70#7 ∨ (0x78#7) = 0x78#7) := by decide

theorem witness_UndefinedAccessIsBusError :
    State.reset.rstN = true ∧ ((63 : Nat) ≠ 64 ∨ (0x08#7).toNat % 8 ≠ 0) ∧
    ((64 : Nat) ≠ 64 ∨ (0x7F#7).toNat % 8 ≠ 0) := by decide

theorem witness_WindowAddressing (P : Params) : P.fpeBase + 0x80 ≤ P.fpeBase + 0x80 ∧
    (EX.fpeBase - 1 < EX.fpeBase ∨ EX.fpeBase + 0x80 ≤ EX.fpeBase - 1) := ⟨le_rfl, by decide⟩

theorem witness_OverrunDropsTheCommand :
    (inFlight 3#64 0#64 0#64).rstN = true ∧ (inFlight 3#64 0#64 0#64).status.busy = true ∧
    (∃ t, hostWrite 0x10#7 64 4#64 (inFlight 3#64 0#64 0#64) = .next t) ∧
    ∃ u, engineTurn (inFlight 3#64 0#64 0#64) = .next u := ⟨rfl, rfl, ⟨_, rfl⟩, ⟨_, rfl⟩⟩

/-- For `InterruptLevel`: a completion with `IE = 1` raises `irq`, an accept lowers it. -/
theorem witness_InterruptLevel :
    (∃ t, applyInput .engine { inFlight 3#64 0#64 0#64 with ie := true } = .next t ∧ t.irq = true) ∧
    { inFlight 3#64 0#64 0#64 with ie := true }.irq = false ∧
    (∃ t, applyInput (.write 0x00#7 64 1#64) (tenState 0#64 0#64) = .next t ∧ t.irq = true) ∧
    (tenState 0#64 0#64).irq = false ∧
    (∃ t, applyInput (.write 0x10#7 64 3#64) { tenState 0#64 0#64 with ie := true } = .next t ∧ t.irq = false) ∧
    { tenState 0#64 0#64 with ie := true }.irq = true ∧ (2#64 : Word).getLsbD 1 = true ∧
    (∃ t, completeCommand 0#64 (inFlight 0#64 0#64 0#64) = .next t) :=
  ⟨⟨_, rfl, rfl⟩, rfl, ⟨_, rfl, rfl⟩, rfl, ⟨_, rfl, rfl⟩, rfl, by decide, ⟨_, rfl⟩⟩

theorem witness_ResetValues : (Reg.ctrl ≠ .id) ∧ (Reg.reserved 3 ≠ .id) := by decide

theorem witness_ResetAbortsTheCommand :
    (inFlight 3#64 0#64 0#64).rstN = true ∧ (inFlight 3#64 0#64 0#64).status.busy = true := by decide

theorem witness_MixDependsOnTheSum : (1#64 + 2#64 : Word) = 3#64 + 0#64 := by decide

/-- For the Feistel statements: the smallest and the largest half width, at the top of the domain. -/
theorem witness_FeistelDecodeInvertsEncode :
    (0 ≤ 32 ∧ (0#64).toNat < 2 ^ (2 * 0)) ∧ (32 ≤ 32 ∧ (0xFFFFFFFFFFFFFFFF#64).toNat < 2 ^ (2 * 32)) := by decide

/-- For the walk statements: a range that fills its domain, and the largest range. -/
theorem witness_WalksTerminateWithinTheBound :
    (1 ≤ 32 ∧ (4#64).toNat ≤ 2 ^ (2 * 1) ∧ (3#64 : Word) < 4#64) ∧
    (32 ≤ 32 ∧ (0xFFFFFFFFFFFFFFFF#64).toNat ≤ 2 ^ (2 * 32) ∧
      (0xFFFFFFFFFFFFFFFE#64 : Word) < 0xFFFFFFFFFFFFFFFF#64) := by decide

theorem witness_WalkAnswersTheFirstReturn : walk (feistelEnc EX 2 3) 10#64 3 2#64 = some (0#64, 3) := by decide

theorem witness_RangeWidthIsTheSmallest : 1 ≤ (1#64).toNat ∧ (1#64).toNat ≤ 2 ^ 0 ∧
    1 ≤ (0xFFFFFFFFFFFFFFFF#64).toNat ∧ (0xFFFFFFFFFFFFFFFF#64).toNat ≤ 2 ^ 64 := by decide

theorem witness_DerivedWidthCoversTheRange :
    1 ≤ (1#64).toNat ∧ 2 ≤ (3#64).toNat ∧ 1 ≤ rangeWidth 3#64 ∧ rangeWidth 3#64 % 2 = 0 := by decide

theorem witness_CfgRangeConfigures :
    ((inFlight 1#64 0#64 0xFFFFFFFFFFFFFFFF#64).latch.a < (inFlight 1#64 0#64 0xFFFFFFFFFFFFFFFF#64).latch.b ∧
      Config.params.numRc ≤ Config.params.numRc) ∧
    (inFlight 1#64 0#64 0#64).latch.b ≤ (inFlight 1#64 0#64 0#64).latch.a ∧
    ((inFlight 1#64 0#64 1#64).latch.a < (inFlight 1#64 0#64 1#64).latch.b ∧
      Config.params.numRc < Config.params.numRc + 1) :=
  ⟨⟨by decide, le_rfl⟩, by decide, ⟨by decide, Nat.lt_succ_self _⟩⟩

theorem witness_CfgFeistelConfigures :
    ((inFlight 2#64 64#64 0#64).latch.a.toNat ≤ 64 ∧ 0 ≤ Config.params.numRc) ∧
    64 < (inFlight 2#64 65#64 0#64).latch.a.toNat ∧
    ((inFlight 2#64 0#64 0#64).latch.a.toNat ≤ 64 ∧ Config.params.numRc < Config.params.numRc + 1) :=
  ⟨⟨by decide, Nat.zero_le _⟩, by decide, ⟨by decide, Nat.lt_succ_self _⟩⟩

theorem witness_SameHalfWidthSamePermutation : 1 ≤ 32 ∧ 32 ≤ 32 ∧ 3 ≤ Config.params.numRc :=
  ⟨by decide, le_rfl, three_le_numRc⟩

/-- For `FeistelEncCompletes` and `FeistelDecCompletes`: the last operand of the domain, the first outside, not configured. -/
theorem witness_FeistelEncCompletes :
    ((accept 5#64 (tenState 0#64 15#64)).latch.feistelValid = true ∧
      (accept 5#64 (tenState 0#64 15#64)).latch.a.toNat <
        2 ^ (2 * (accept 5#64 (tenState 0#64 15#64)).latch.cfg.geom.h.toNat)) ∧
    (inFlight 5#64 0#64 0#64).latch.feistelValid = false ∧
    ((accept 5#64 (tenState 0#64 16#64)).latch.feistelValid = true ∧
      2 ^ (2 * (accept 5#64 (tenState 0#64 16#64)).latch.cfg.geom.h.toNat) ≤
        (accept 5#64 (tenState 0#64 16#64)).latch.a.toNat) := by decide

theorem witness_FeistelCommandsInvertEachOther :
    (tenState 0#64 0#64).CfgInv Config.params ∧ (tenState 0#64 0#64).status.feistelValid = true ∧
    (15#64).toNat < 2 ^ (2 * (tenState 0#64 0#64).cfg.geom.h.toNat) :=
  ⟨tenCfg_consistent 0#64 (by decide), rfl, by decide⟩

/-- For `RangeEncCompletes`, `RangeDecCompletes`, `RangeEncPermutesTheRange`: the last operand of the range, the first
outside on each side, not configured. -/
theorem witness_RangeEncCompletes :
    ((accept 3#64 (tenState 100#64 109#64)).LatchInv Config.params ∧
      (accept 3#64 (tenState 100#64 109#64)).latch.rangeValid = true ∧ (100#64).toNat ≤ (109#64).toNat ∧
      (109#64).toNat < (100#64).toNat + (10#64).toNat) ∧
    (inFlight 3#64 0#64 0#64).latch.rangeValid = false ∧
    ((99#64).toNat < (100#64).toNat ∨ (10#64).toNat ≤ (99#64).toNat - (100#64).toNat) ∧
    ((110#64).toNat < (100#64).toNat ∨ (10#64).toNat ≤ (110#64).toNat - (100#64).toNat) :=
  ⟨⟨tenCfg_consistent 100#64 (by decide), rfl, by decide, by decide⟩, rfl, by decide, by decide⟩

theorem witness_RangeCommandsInvertEachOther :
    (tenState 0#64 0#64).CfgInv Config.params ∧ (tenState 0#64 0#64).status.rangeValid = true ∧
    (tenState 0#64 0#64).cfg.min.toNat ≤ (9#64).toNat ∧
    (9#64).toNat < (tenState 0#64 0#64).cfg.min.toNat + (tenState 0#64 0#64).cfg.size.toNat :=
  ⟨tenCfg_consistent 0#64 (by decide), rfl, by decide, by decide⟩

theorem witness_SingleElementRange :
    (accept 3#64 (oneState 5#64)).LatchInv Config.params ∧ (accept 3#64 (oneState 5#64)).latch.rangeValid = true ∧
    (accept 3#64 (oneState 5#64)).latch.cfg.size = 1#64 ∧
    (accept 3#64 (oneState 5#64)).latch.a = (accept 3#64 (oneState 5#64)).latch.cfg.min :=
  ⟨oneCfg_consistent, rfl, rfl, rfl⟩

theorem witness_FullDomainRangeTakesOneIteration :
    (accept 3#64 (fourState 3#64)).LatchInv Config.params ∧
    (accept 3#64 (fourState 3#64)).latch.rangeValid = true ∧
    (accept 3#64 (fourState 3#64)).latch.cfg.size.toNat =
      2 ^ (2 * (accept 3#64 (fourState 3#64)).latch.cfg.geom.h.toNat) ∧
    (accept 3#64 (fourState 3#64)).latch.cfg.min.toNat ≤ (accept 3#64 (fourState 3#64)).latch.a.toNat ∧
    (accept 3#64 (fourState 3#64)).latch.a.toNat <
      (accept 3#64 (fourState 3#64)).latch.cfg.min.toNat + (accept 3#64 (fourState 3#64)).latch.cfg.size.toNat :=
  ⟨fourCfg_consistent, rfl, by decide, by decide, by decide⟩

theorem witness_LargestRange :
    (inFlight 1#64 0#64 0xFFFFFFFFFFFFFFFF#64).latch.a = 0#64 ∧
    (inFlight 1#64 0#64 0xFFFFFFFFFFFFFFFF#64).latch.b.toNat = 2 ^ 64 - 1 ∧ 3 ≤ Config.params.numRc ∧
    (0xFFFFFFFFFFFFFFFF#64).toNat = 2 ^ 64 - 1 ∧ (0xFFFFFFFFFFFFFFFE#64 : Word) < 0xFFFFFFFFFFFFFFFF#64 :=
  ⟨rfl, by decide, three_le_numRc, by decide, by decide⟩

/-- For `ErrorCompletionEffect`, `ErrorPriority`: an error of a command, and an illegal word. -/
theorem witness_ErrorCompletionEffect :
    (∃ t, completeCommand 1#64 (inFlight 1#64 0#64 0#64) = .next t ∧ t.status.err ≠ .ok) ∧
    ∃ t, completeCommand 0#64 (inFlight 0#64 0#64 0#64) = .next t ∧ t.status.err = .illegalCmd :=
  ⟨⟨_, rfl, by decide⟩, ⟨_, rfl, rfl⟩⟩

/-- For `SuccessCompletionEffect`, `OperandWritesDoNotDisturb`: a command that succeeds whatever the parameters. -/
theorem witness_SuccessCompletionEffect :
    ∃ t, exec .feistelEnc (accept 5#64 (tenState 0#64 15#64)) = .next t ∧ t.status.err = .ok := ⟨_, rfl, rfl⟩

theorem witness_ErrorPriority :
    ¬ LegalWord 0#64 ∧ (∃ t, exec (.cfgRange 0) (inFlight 1#64 0#64 0#64) = .next t) ∧
    (∃ t, exec (.cfgFeistel 0) (inFlight 2#64 65#64 0#64) = .next t) ∧
    (∃ t, exec .rangeDec (accept 4#64 (tenState 0#64 10#64)) = .next t) ∧
    ∃ t, exec .feistelDec (accept 6#64 (tenState 0#64 16#64)) = .next t :=
  ⟨fun h => absurd h.1 (by decide), ⟨_, rfl⟩, ⟨_, rfl⟩, ⟨_, rfl⟩, ⟨_, rfl⟩⟩

theorem witness_ConfigurationErrorInvalidates :
    (∃ t, exec (.cfgRange 3) (accept 0x301#64 (tenState 0#64 10#64)) = .next t ∧ t.status.err = .rangeEmpty) ∧
    (∃ t, exec (.cfgFeistel 3) (accept 0x302#64 (tenState 0#64 65#64)) = .next t ∧ t.status.err = .bitsTooWide) ∧
    Instr.isCompute .rangeEnc = true := ⟨⟨_, rfl, rfl⟩, ⟨_, rfl, rfl⟩, rfl⟩

theorem witness_UsageErrorsKeepTheConfiguration :
    (∃ t, completeCommand 7#64 (accept 7#64 (tenState 0#64 0#64)) = .next t ∧ t.status.err = .illegalCmd) ∧
    (∃ t, completeCommand 3#64 (inFlight 3#64 0#64 0#64) = .next t ∧ t.status.err = .notConfigured) ∧
    ∃ t, completeCommand 5#64 (accept 5#64 (tenState 0#64 16#64)) = .next t ∧ t.status.err = .outOfDomain :=
  ⟨⟨_, rfl, rfl⟩, ⟨_, rfl, rfl⟩, ⟨_, rfl, rfl⟩⟩

/-- Two states that agree on the configuration and the operand and on nothing else that matters. -/
theorem witness_ResultDependsOnConfigurationAndOperand :
    let s := accept 5#64 (tenState 0#64 15#64)
    let s' := { accept 5#64 (tenState 0#64 15#64) with ie := true, result := 7#64, opa := 1#64 }
    Instr.isCompute .feistelEnc = true ∧ s ≠ s' ∧ s.latch.cfg = s'.latch.cfg ∧
    s.latch.rangeValid = s'.latch.rangeValid ∧ s.latch.feistelValid = s'.latch.feistelValid ∧
    s.latch.a = s'.latch.a ∧ (∃ t, exec .feistelEnc s = .next t ∧ t.status.err = .ok) ∧
    ∃ t', exec .feistelEnc s' = .next t' :=
  ⟨rfl, by decide, rfl, rfl, rfl, rfl, ⟨_, rfl, rfl⟩, ⟨_, rfl⟩⟩

theorem witness_StepRunsTheDecodedCommand :
    (inFlight 3#64 0#64 0#64).rstN = true ∧ (inFlight 3#64 0#64 0#64).status.busy = true ∧
    decode (inFlight 3#64 0#64 0#64).latch.cmd = .ok .rangeEnc ∧ (inFlight 3#64 0#64 0#64).inputs = [] ∧
    { inFlight 3#64 0#64 0#64 with inputs := [Input.engine] }.inputs = Input.engine :: [] :=
  ⟨rfl, rfl, by decide, rfl, rfl⟩

theorem witness_PlacedCommandRunsNext : decodeTableWord 64 0xFF01 = some (.cfgRange 255) := by decide

theorem witness_StepKeepsTheInvariant :
    State.reset.Inv Config.params ∧ ∃ t, step State.reset = .next t := by
  refine ⟨⟨⟨⟨rfl, rfl⟩, fun h => ?_, fun h => ?_⟩, fun h => ?_, fun h => ?_⟩, ⟨_, rfl⟩⟩ <;> cases h

/-- The range `[0, 10)` with a command in flight meets the invariant. -/
theorem tenState_busy_inv (w a : Word) : (accept w (tenState 0#64 a)).Inv Config.params :=
  ⟨tenCfg_consistent 0#64 (by decide), fun _ => ⟨rfl, rfl, rfl, rfl, rfl, rfl⟩, fun h => nomatch h⟩

theorem witness_ConfigurationStaysConsistent :
    (accept 5#64 (tenState 0#64 15#64)).CfgInv Config.params ∧
    (∃ t, completeCommand 5#64 (accept 5#64 (tenState 0#64 15#64)) = .next t) ∧
    ∃ t, step (accept 5#64 (tenState 0#64 15#64)) = .next t :=
  ⟨tenCfg_consistent 0#64 (by decide), ⟨_, rfl⟩, ⟨_, rfl⟩⟩

theorem witness_AcceptedCommandCompletes :
    let accesses : List Input := [readOf .status, writeOf .cmd 4#64, writeOf .opa 9#64]
    let s := { accept 3#64 (tenState 0#64 2#64) with inputs := accesses ++ [Input.engine] }
    s.Inv Config.params ∧ s.rstN = true ∧ s.status.busy = true ∧
    (∀ e ∈ accesses, e.isDefinedAccess = true) ∧ s.inputs = accesses ++ [.engine] :=
  ⟨⟨tenCfg_consistent 0#64 (by decide), fun _ => ⟨rfl, rfl, rfl, rfl, rfl, rfl⟩, fun h => nomatch h⟩, rfl, rfl,
    by decide, rfl⟩

theorem witness_BusAnsweredWhileBusy :
    (inFlight 3#64 0#64 0#64).rstN = true ∧ (inFlight 3#64 0#64 0#64).status.busy = true ∧
    (readOf .status).isDefinedAccess = true := by decide

theorem witness_HostAccessesWriteNoOutput :
    (writeOf .result 5#64).isHostAccess = true ∧
    (∃ t, applyInput (writeOf .result 5#64) (accept 3#64 (tenState 0#64 2#64)) = .next t) ∧
    (accept 3#64 (tenState 0#64 2#64)).Inv Config.params ∧
    (accept 3#64 (tenState 0#64 2#64)).status.busy = true :=
  ⟨rfl, ⟨_, rfl⟩, tenState_busy_inv _ _, rfl⟩

theorem witness_BothOrdersOfCompletionAndCommand :
    (inFlight 3#64 0#64 0#64).rstN = true ∧ (inFlight 3#64 0#64 0#64).status.busy = true ∧
    (inFlight 3#64 0#64 0#64).inputs = [] ∧ ∃ t, engineTurn (inFlight 3#64 0#64 0#64) = .next t :=
  ⟨rfl, rfl, rfl, ⟨_, rfl⟩⟩

theorem witness_PseudoInstructionsExpand : (255 : Nat) ≤ 255 ∧ 255 < 256 := by decide

end Sys2Proof.Tests
end

/-! Noninterference of the encode and decode commands (spec/00_scope.md R5): the outcome is read off the copies of the
configuration and the operand, and off nothing else of the state. -/

namespace Sys2Proof.Machine

variable {s s' : State}

/-- Two states with the same configuration and the same operand at accept (00_scope.md R5, 10_state.md R60). -/
structure SameOperation (s s' : State) : Prop where
  cfg : s.latch.cfg = s'.latch.cfg
  rangeValid : s.latch.rangeValid = s'.latch.rangeValid
  feistelValid : s.latch.feistelValid = s'.latch.feistelValid
  operand : s.latch.a = s'.latch.a

/-- Two completed commands report the same code and iterations and, on success, the same result. -/
def SameAnswer (t t' : State) : Prop :=
  t.status.err = t'.status.err ∧ t.iterCount = t'.iterCount ∧ (t.status.err = .ok → t.result = t'.result)

/-- Two runs of a command end alike: both complete with the same answer, or both stop with the same fault. -/
inductive OutcomesAlike : Host.Outcome State Fault Refusal → Host.Outcome State Fault Refusal → Prop
  | next {t t' : State} (h : SameAnswer t t') : OutcomesAlike (.next t) (.next t')
  | fault (e : Fault) : OutcomesAlike (.fault e) (.fault e)

theorem OutcomesAlike.sameAnswer {t t' : State} (h : OutcomesAlike (.next t) (.next t')) : SameAnswer t t' := by
  cases h with
  | next h => exact h

/-- An error completion leaves the old `RESULT`, which may differ between the states, so the code must be an error. -/
theorem sameAnswer_raiseError {c : Code} (hc : c ≠ .ok) (s s' : State) :
    SameAnswer (raiseError c s) (raiseError c s') := by
  simp [SameAnswer, hc]

theorem sameAnswer_completeOk_setResult (n v : Word) (s s' : State) :
    SameAnswer (completeOk n (setResult v s)) (completeOk n (setResult v s')) := by
  simp [SameAnswer]

theorem finishWalk_outcomesAlike (min : Word) (walked : Option (Word × Nat)) (s s' : State) :
    OutcomesAlike (finishWalk min walked s) (finishWalk min walked s') := by
  cases walked with
  | none => exact .fault .walkUnending
  | some p => exact .next (sameAnswer_completeOk_setResult _ _ s s')

namespace SameOperation

theorem opA (h : SameOperation s s') : s.opA = s'.opA := h.operand

theorem halfWidth (h : SameOperation s s') : s.halfWidth = s'.halfWidth := by
  simp only [State.halfWidth, h.cfg]

theorem roundCount (h : SameOperation s s') : s.roundCount = s'.roundCount := by
  simp only [State.roundCount, h.cfg]

theorem inFeistelDomain (h : SameOperation s s') : s.inFeistelDomain = s'.inFeistelDomain := by
  simp only [State.inFeistelDomain, h.opA, h.halfWidth]

theorem inRange (h : SameOperation s s') : s.inRange = s'.inRange := by
  simp only [State.inRange, h.opA, h.cfg]

/-- Both runs take the same branch of R147 and R148, whatever the function applied. -/
theorem outcomesAlike_feistelCommand (h : SameOperation s s') (f : Nat → Nat → Word → Word) :
    OutcomesAlike (feistelCommand f s) (feistelCommand f s') := by
  unfold feistelCommand
  rw [h.feistelValid, h.inFeistelDomain, h.halfWidth, h.roundCount, h.opA]
  split_ifs
  · exact .next (sameAnswer_raiseError (by decide) s s')
  · exact .next (sameAnswer_raiseError (by decide) s s')
  · exact .next (sameAnswer_completeOk_setResult _ _ s s')

/-- Both runs take the same branch of R175 and R176 and walk alike, whatever the walk. -/
theorem outcomesAlike_rangeCommand (h : SameOperation s s') (w : Nat → Nat → Word → Word → Option (Word × Nat)) :
    OutcomesAlike (rangeCommand w s) (rangeCommand w s') := by
  unfold rangeCommand
  rw [h.rangeValid, h.inRange, h.halfWidth, h.roundCount, h.opA, h.cfg]
  split_ifs
  · exact .next (sameAnswer_raiseError (by decide) s s')
  · exact .next (sameAnswer_raiseError (by decide) s s')
  · exact finishWalk_outcomesAlike _ _ s s'

/-- An encode or decode ends alike, faults included, from two states with the same configuration and operand. -/
theorem outcomesAlike_exec (h : SameOperation s s') {i : Instr} (hi : i.isCompute = true) :
    OutcomesAlike (exec i s) (exec i s') := by
  cases i with
  | cfgRange r => cases hi
  | cfgFeistel r => cases hi
  | rangeEnc => exact h.outcomesAlike_rangeCommand (walkEnc Config.params)
  | rangeDec => exact h.outcomesAlike_rangeCommand (walkDec Config.params)
  | feistelEnc => exact h.outcomesAlike_feistelCommand (feistelEnc Config.params)
  | feistelDec => exact h.outcomesAlike_feistelCommand (feistelDec Config.params)

end SameOperation

/-- Settles O47: the two runs end alike, so where both complete they give one answer. -/
theorem resultDependsOnConfigurationAndOperand : Obligations.ResultDependsOnConfigurationAndOperand := by
  intro i s s' t t' hi hcfg hrange hfeistel ha ht ht'
  have hop : SameOperation s s' := ⟨hcfg, hrange, hfeistel, ha⟩
  have h := hop.outcomesAlike_exec hi
  rw [ht, ht'] at h
  exact h.sameAnswer

end Sys2Proof.Machine

/-! The configuration registers stay consistent (spec/10_state.md R62) and the invariant of the whole state is kept: what
each completion, host access and level of `rst_n` does to them. -/

namespace Sys2Proof.Machine

variable {P : Params} {s t : State}

/-! ## Consistent configurations -/

namespace CfgRegs

/-- With both valid bits 0 only the geometry is constrained, as after a configuration error (60_exceptions.md R209). -/
theorem Consistent.invalidated {c : CfgRegs} {rv fv : Bool} (h : c.Consistent P rv fv) :
    c.Consistent P false false := by
  obtain ⟨hgeom, -, -⟩ := h
  exact ⟨hgeom, nofun, nofun⟩

/-- The configuration `CFG_FEISTEL` writes (41_feistel.md R146). -/
theorem consistent_configFor_feistel {w r : Nat} (hw : w ≤ 64) (hr : r ≤ P.numRc) :
    (configFor 0#64 0#64 w r).Consistent P false true := by
  obtain ⟨hW, hH, hR, hM⟩ := configFor_fields (min := 0#64) (size := 0#64) hw (hr.trans P.numRc_le)
  refine ⟨⟨?_, ?_⟩, fun _ => ⟨?_, ?_⟩, nofun⟩
  · rw [hH, hW]
  · rw [hM, hH]
  · rw [hW]; exact hw
  · rw [hR]; exact hr

/-- The configuration `CFG_RANGE` writes for the range `[a, b)` (42_range.md R168). -/
theorem consistent_configFor_range {a b : Word} {r : Nat} (hab : a < b) (hr : r ≤ P.numRc) :
    (configFor a (b - a) (rangeWidth (b - a)) r).Consistent P true true := by
  have hw : rangeWidth (b - a) ≤ 64 := bitlen_le _
  obtain ⟨hW, hH, hR, hM⟩ := configFor_fields (min := a) (size := b - a) hw (hr.trans P.numRc_le)
  have hsize : (b - a).toNat = b.toNat - a.toNat := BitVec.toNat_sub_of_le (BitVec.le_of_lt hab)
  have hlt : a.toNat < b.toNat := hab
  have hb := b.isLt
  refine ⟨⟨?_, ?_⟩, fun _ => ⟨?_, ?_⟩, fun _ => ⟨rfl, ?_, ?_, hW⟩⟩
  · rw [hH, hW]
  · rw [hM, hH]
  · rw [hW]; exact hw
  · rw [hR]; exact hr
  · change 1 ≤ (b - a).toNat
    omega
  · change a.toNat + (b - a).toNat ≤ 2 ^ 64 - 1
    omega

theorem reset_consistent : CfgRegs.reset.Consistent P false false :=
  ⟨⟨rfl, rfl⟩, nofun, nofun⟩

end CfgRegs

/-! ## Completions keep the configuration consistent -/

/-- An error completion keeps the configuration registers, and the valid bits unless it clears both. -/
theorem cfgInv_raiseError (h : s.CfgInv P) (c : Code) : (raiseError c s).CfgInv P := by
  cases hc : c.isConfigError with
  | true => simpa [State.CfgInv, hc] using CfgRegs.Consistent.invalidated h
  | false => simpa [State.CfgInv, hc] using h

theorem cfgInv_cfgRange {r : Nat} (h : s.CfgInv P) (ht : cfgRange P r s = .next t) : t.CfgInv P := by
  rcases cfgRange_cases P r s with ⟨-, ho⟩ | ⟨-, -, ho⟩ | ⟨hab, hr, ho⟩ <;> cases ho.symm.trans ht
  · exact cfgInv_raiseError h _
  · exact cfgInv_raiseError h _
  · exact CfgRegs.consistent_configFor_range hab hr

theorem cfgInv_cfgFeistel {r : Nat} (h : s.CfgInv P) (ht : cfgFeistel P r s = .next t) : t.CfgInv P := by
  rcases cfgFeistel_cases P r s with ⟨-, ho⟩ | ⟨-, -, ho⟩ | ⟨hw, hr, ho⟩ <;> cases ho.symm.trans ht
  · exact cfgInv_raiseError h _
  · exact cfgInv_raiseError h _
  · exact CfgRegs.consistent_configFor_feistel hw hr

theorem cfgInv_feistelCommand {f : Nat → Nat → Word → Word} (h : s.CfgInv P)
    (ht : feistelCommand f s = .next t) : t.CfgInv P := by
  rcases feistelCommand_cases f s with ⟨-, ho⟩ | ⟨-, -, ho⟩ | ⟨-, -, ho⟩ <;> cases ho.symm.trans ht
  · exact cfgInv_raiseError h _
  · exact cfgInv_raiseError h _
  · exact h

theorem cfgInv_rangeCommand {w : Nat → Nat → Word → Word → Option (Word × Nat)} (h : s.CfgInv P)
    (ht : rangeCommand w s = .next t) : t.CfgInv P := by
  rcases rangeCommand_cases w s with ⟨-, ho⟩ | ⟨-, -, ho⟩ | ⟨-, -, ho⟩
  · cases ho.symm.trans ht
    exact cfgInv_raiseError h _
  · cases ho.symm.trans ht
    exact cfgInv_raiseError h _
  · obtain ⟨x, n, -, rfl⟩ := finishWalk_next (ho.symm.trans ht)
    exact h

theorem cfgInv_exec {i : Instr} (h : s.CfgInv Config.params) (ht : exec i s = .next t) :
    t.CfgInv Config.params := by
  cases i with
  | cfgRange r => exact cfgInv_cfgRange h ht
  | cfgFeistel r => exact cfgInv_cfgFeistel h ht
  | rangeEnc => exact cfgInv_rangeCommand h ht
  | rangeDec => exact cfgInv_rangeCommand h ht
  | feistelEnc => exact cfgInv_feistelCommand h ht
  | feistelDec => exact cfgInv_feistelCommand h ht

theorem cfgInv_completeCommand {w : Word} (h : s.CfgInv Config.params) (ht : completeCommand w s = .next t) :
    t.CfgInv Config.params := by
  rcases completeCommand_cases w s with ⟨i, -, ho⟩ | ⟨e, -, ho⟩
  · exact cfgInv_exec h (ho.symm.trans ht)
  · cases ho.symm.trans ht
    exact cfgInv_raiseError h _

/-! ## What one input can do -/

/-- What a host access does to the registers the invariants speak of (20_memory.md R85, R88, R89, 70_reset_and_hazards.md
R238): it writes no output or configuration register, disturbs no command in flight, and a command it starts has its
copies. -/
structure AccessEffect (s t : State) : Prop where
  result : t.result = s.result
  iterCount : t.iterCount = s.iterCount
  cfg : t.cfg = s.cfg
  rangeValid : t.status.rangeValid = s.status.rangeValid
  feistelValid : t.status.feistelValid = s.status.feistelValid
  rstN : t.rstN = s.rstN
  busy : s.status.busy = true → t.latch = s.latch ∧ t.cmdLast = s.cmdLast ∧ t.status.busy = true ∧
    t.status.err = s.status.err ∧ (t.status.done = true → s.status.done = true)
  idle : s.status.busy = false → t.status.busy = true → t.InFlight

/-- The copies of an accepted command are the registers' values (20_memory.md R88). -/
theorem inFlight_accept (v : Word) (s : State) : (accept v s).InFlight := ⟨rfl, rfl, rfl, rfl, rfl, rfl⟩

/-- Of an idle block's registers only a write of `CMD` starts a command. -/
theorem inFlight_writeReg_of_idle {r : Reg} {v : Word} (hidle : s.status.busy = false)
    (hbusy : (writeReg r v s).status.busy = true) : (writeReg r v s).InFlight := by
  cases r with
  | cmd => simpa [writeReg, hidle] using inFlight_accept v s
  | _ => exact nomatch hidle.symm.trans hbusy

theorem AccessEffect.read (s : State) (reply : PortReply) : AccessEffect s { s with reply := reply } where
  result := rfl
  iterCount := rfl
  cfg := rfl
  rangeValid := rfl
  feistelValid := rfl
  rstN := rfl
  busy hb := ⟨rfl, rfl, hb, rfl, id⟩
  idle hi hb := nomatch hi.symm.trans hb

theorem AccessEffect.write (s : State) (r : Reg) (v : Word) (reply : PortReply) :
    AccessEffect s { writeReg r v s with reply := reply } := by
  obtain ⟨hresult, hiter, hcfg, hrst, -, -, hrange, hfeistel, hbusy⟩ := writeReg_frame r v s
  exact ⟨hresult, hiter, hcfg, hrange, hfeistel, hrst, hbusy, inFlight_writeReg_of_idle⟩

/-- A host access is answered only out of reset (70_reset_and_hazards.md R230). -/
theorem hostAccess_next {e : Input} (he : e.isHostAccess = true) (ht : applyInput e s = .next t) :
    s.rstN = true ∧ AccessEffect s t := by
  cases e with
  | read off width =>
    obtain ⟨hrst, r, -, rfl⟩ := hostRead_next ht
    exact ⟨hrst, .read s _⟩
  | write off width v =>
    obtain ⟨hrst, r, -, rfl⟩ := hostWrite_next ht
    exact ⟨hrst, .write s r v _⟩
  | engine => cases he
  | rst level => cases he

/-- Everything one input can do to the registers the invariants speak of. -/
inductive InputEffect (s : State) : State → Prop
  | nothing : InputEffect s s
  | access {t : State} (hrst : s.rstN = true) (ht : AccessEffect s t) : InputEffect s t
  | completion {t : State} (hrst : s.rstN = true) (ht : completeCommand s.latch.cmd s = .next t) : InputEffect s t
  | reset (level : Bool) : InputEffect s { State.reset with rstN := level, inputs := s.inputs }

theorem inputEffect_engineTurn (ht : engineTurn s = .next t) : InputEffect s t := by
  rcases engineTurn_cases s with ⟨hrst, -, ho⟩ | ⟨-, ho⟩
  · exact .completion hrst (ho.symm.trans ht)
  · cases ho.symm.trans ht
    exact .nothing

theorem inputEffect_driveReset (level : Bool) (s : State) : InputEffect s (driveReset level s) := by
  rcases driveReset_cases level s with ⟨-, -, ho⟩ | ⟨-, ho⟩ <;> rw [ho]
  · exact .nothing
  · exact .reset level

theorem inputEffect_applyInput {e : Input} (ht : applyInput e s = .next t) : InputEffect s t := by
  cases e with
  | read off width =>
    obtain ⟨hrst, hacc⟩ := hostAccess_next rfl ht
    exact .access hrst hacc
  | write off width v =>
    obtain ⟨hrst, hacc⟩ := hostAccess_next rfl ht
    exact .access hrst hacc
  | engine => exact inputEffect_engineTurn ht
  | rst level =>
    cases ht
    exact inputEffect_driveReset level s

/-- A step is the effect of one input, that input taken off the list (20_memory.md R90; the engine's turn when none is
left, log 2). -/
theorem step_next (ht : step s = .next t) : InputEffect { s with inputs := s.inputs.tail } t := by
  unfold step takeInput at ht
  split at ht
  next hnil =>
    have hs : { s with inputs := s.inputs.tail } = s := by
      rw [hnil, List.tail_nil, ← hnil]
    rw [hs]
    exact inputEffect_engineTurn ht
  next e rest hcons =>
    rw [hcons]
    exact inputEffect_applyInput ht

/-! ## Inputs keep the invariants -/

theorem cfgInv_accessEffect (h : s.CfgInv P) (ha : AccessEffect s t) : t.CfgInv P := by
  unfold State.CfgInv
  rw [ha.cfg, ha.rangeValid, ha.feistelValid]
  exact h

theorem cfgInv_inputEffect (h : s.CfgInv Config.params) (he : InputEffect s t) : t.CfgInv Config.params := by
  cases he with
  | nothing => exact h
  | access _ ha => exact cfgInv_accessEffect h ha
  | completion _ ht => exact cfgInv_completeCommand h ht
  | reset level => exact CfgRegs.reset_consistent

/-- A command in flight stays so under a host access, and one the access starts is in flight. -/
theorem inFlight_accessEffect (h : s.status.busy = true → s.InFlight) (ha : AccessEffect s t)
    (hbusy : t.status.busy = true) : t.InFlight := by
  cases hs : s.status.busy with
  | false => exact ha.idle hs hbusy
  | true =>
    obtain ⟨hcmd, hcfg, hrange, hfeistel, hdone, herr⟩ := h hs
    obtain ⟨hlatch, hlast, -, herr', hdone'⟩ := ha.busy hs
    refine ⟨?_, ?_, ?_, ?_, ?_, ?_⟩
    · rw [hlatch, hlast, hcmd]
    · rw [hlatch, ha.cfg, hcfg]
    · rw [hlatch, ha.rangeValid, hrange]
    · rw [hlatch, ha.feistelValid, hfeistel]
    · exact Bool.eq_false_iff.2 fun hd => nomatch hdone.symm.trans (hdone' hd)
    · rw [herr', herr]

/-- The invariant does not speak of what is still to reach the block. -/
theorem State.Inv.withInputs (h : s.Inv P) (inputs : List Input) : { s with inputs := inputs }.Inv P := by
  obtain ⟨hcfg, hflight, hreset⟩ := h
  refine ⟨hcfg, hflight, fun hrst => ?_⟩
  have hs : s = { State.reset with rstN := false, inputs := s.inputs } := hreset hrst
  rw [State.AtReset, hs]

/-- A completion leaves no command in flight, and an access or a completion happens only out of reset. -/
theorem inv_inputEffect (h : s.Inv Config.params) (he : InputEffect s t) : t.Inv Config.params := by
  obtain ⟨hcfg₀, hflight, hreset⟩ := h
  have hcfg : t.CfgInv Config.params := cfgInv_inputEffect hcfg₀ he
  cases he with
  | nothing => exact ⟨hcfg, hflight, hreset⟩
  | access hrst ha =>
    exact ⟨hcfg, inFlight_accessEffect hflight ha,
      fun hr => nomatch (ha.rstN.trans hrst).symm.trans hr⟩
  | completion hrst ht =>
    obtain ⟨-, -, -, -, -, -, hrst', -, -, hbusy, -⟩ := completeCommand_frame ht
    exact ⟨hcfg, fun hb => (nomatch hbusy.symm.trans hb),
      fun hr => nomatch (hrst'.trans hrst).symm.trans hr⟩
  | reset level =>
    refine ⟨hcfg, nofun, fun hr => ?_⟩
    cases (show level = false from hr)
    rfl

/-- Settles O52: a step is the effect of one input, and each keeps the invariant. -/
theorem stepKeepsTheInvariant : Obligations.StepKeepsTheInvariant := by
  intro s t hs ht
  exact inv_inputEffect (hs.withInputs _) (step_next ht)

/-- Settles O50: base case, completions and steps. -/
theorem configurationStaysConsistent : Obligations.ConfigurationStaysConsistent := by
  refine ⟨CfgRegs.reset_consistent, fun w s t hs ht => cfgInv_completeCommand hs ht, fun s t hs ht => ?_⟩
  exact cfgInv_inputEffect (s := { s with inputs := s.inputs.tail }) hs (step_next ht)

/-- Settles O55: a host access has an `AccessEffect`, and in flight `ERR` reads 0 by the invariant. -/
theorem hostAccessesWriteNoOutput : Obligations.HostAccessesWriteNoOutput := by
  intro s t e he ht
  obtain ⟨-, ha⟩ := hostAccess_next he ht
  refine ⟨⟨ha.result, ha.iterCount, ha.cfg, ha.rangeValid, ha.feistelValid⟩, fun hinv hbusy => ?_⟩
  obtain ⟨-, hflight, -⟩ := hinv
  obtain ⟨-, -, -, -, -, herr⟩ := hflight hbusy
  obtain ⟨hlatch, hlast, hbusy', herr', -⟩ := ha.busy hbusy
  exact ⟨herr'.trans herr, hbusy', hlatch, hlast⟩

/-! ## Commands do not see the operand registers -/

/-- Other values in `OPA` and `OPB` (70_reset_and_hazards.md R237). -/
def withOperands (v w : Word) (s : State) : State := { s with opa := v, opb := w }

/-- An outcome with its next state, where it has one, changed. -/
def mapNext (f : State → State) : Host.Outcome State Fault Refusal → Host.Outcome State Fault Refusal
  | .next s => .next (f s)
  | .fault r => .fault r
  | .refused r => .refused r

@[simp] theorem mapNext_next (f : State → State) (s : State) : mapNext f (.next s) = .next (f s) := rfl

section
variable (v w : Word)

theorem raiseError_withOperands (c : Code) (s : State) :
    raiseError c (withOperands v w s) = withOperands v w (raiseError c s) := by
  cases c <;> rfl

theorem cfgRange_withOperands (r : Nat) (s : State) :
    cfgRange P r (withOperands v w s) = mapNext (withOperands v w) (cfgRange P r s) := by
  simp only [cfgRange, mapNext_next, apply_ite (withOperands v w), raiseError_withOperands]
  rfl

theorem cfgFeistel_withOperands (r : Nat) (s : State) :
    cfgFeistel P r (withOperands v w s) = mapNext (withOperands v w) (cfgFeistel P r s) := by
  simp only [cfgFeistel, mapNext_next, apply_ite (withOperands v w), raiseError_withOperands]
  rfl

theorem feistelCommand_withOperands (f : Nat → Nat → Word → Word) (s : State) :
    feistelCommand f (withOperands v w s) = mapNext (withOperands v w) (feistelCommand f s) := by
  simp only [feistelCommand, mapNext_next, apply_ite (withOperands v w), raiseError_withOperands]
  rfl

theorem finishWalk_withOperands (min : Word) (walked : Option (Word × Nat)) (s : State) :
    finishWalk min walked (withOperands v w s) = mapNext (withOperands v w) (finishWalk min walked s) := by
  cases walked <;> rfl

theorem rangeCommand_withOperands (f : Nat → Nat → Word → Word → Option (Word × Nat)) (s : State) :
    rangeCommand f (withOperands v w s) = mapNext (withOperands v w) (rangeCommand f s) := by
  simp only [rangeCommand, apply_ite (mapNext (withOperands v w)), mapNext_next, ← finishWalk_withOperands,
    ← raiseError_withOperands]
  rfl

/-- A command reads its operands off its copies (10_state.md R60), so it commutes with a change of the registers. -/
theorem exec_withOperands (i : Instr) (s : State) :
    exec i (withOperands v w s) = mapNext (withOperands v w) (exec i s) := by
  cases i with
  | cfgRange r => exact cfgRange_withOperands v w r s
  | cfgFeistel r => exact cfgFeistel_withOperands v w r s
  | rangeEnc => exact rangeCommand_withOperands v w (walkEnc Config.params) s
  | rangeDec => exact rangeCommand_withOperands v w (walkDec Config.params) s
  | feistelEnc => exact feistelCommand_withOperands v w (feistelEnc Config.params) s
  | feistelDec => exact feistelCommand_withOperands v w (feistelDec Config.params) s

end

/-- Settles O56: the run with other operand registers is the run, those registers changed after it. -/
theorem operandWritesDoNotDisturb : Obligations.OperandWritesDoNotDisturb := by
  intro s t i v w ht
  calc exec i (withOperands v w s) = mapNext (withOperands v w) (exec i s) := exec_withOperands v w i s
    _ = .next (withOperands v w t) := by rw [ht, mapNext_next]

/-! ## The reserved offsets -/

theorem exists_reserved_of_offset {off : BitVec 7}
    (h : off = 0x60#7 ∨ off = 0x68#7 ∨ off = 0x70#7 ∨ off = 0x78#7) : ∃ k, off = (Reg.reserved k).offset := by
  rcases h with rfl | rfl | rfl | rfl
  · exact ⟨0, rfl⟩
  · exact ⟨1, rfl⟩
  · exact ⟨2, rfl⟩
  · exact ⟨3, rfl⟩

/-- Settles O8: the four offsets are those of the reserved places, which read 0 and which a write leaves alone. -/
theorem reservedOffsets : Obligations.ReservedOffsets := by
  intro s v off hrst hoff
  obtain ⟨k, rfl⟩ := exists_reserved_of_offset hoff
  exact ⟨hostRead_of_accessed hrst (accessed_offset _), hostWrite_of_accessed hrst (accessed_offset _)⟩

end Sys2Proof.Machine

/-! The register window (spec/20_memory.md): host reads and writes offset by offset, the window's bus addresses, and the
command in flight under an overrun. -/

namespace Sys2Proof.Machine

variable {P : Params} {s : State}

/-! ## Accesses of a whole register -/

theorem hostRead_offset (hrst : s.rstN = true) (r : Reg) :
    hostRead P r.offset 64 s = .next { s with reply := .readData (readReg P r s) } :=
  hostRead_of_accessed hrst (accessed_offset r)

theorem hostWrite_offset (hrst : s.rstN = true) (r : Reg) (v : Word) :
    hostWrite r.offset 64 v s = .next { writeReg r v s with reply := .written } :=
  hostWrite_of_accessed hrst (accessed_offset r)

/-- A multiple of 8 in the window is the offset of a register (20_memory.md R81). -/
theorem exists_reg_of_aligned {off : BitVec 7} (h : off.toNat % 8 = 0) : ∃ r : Reg, r.offset = off := by
  obtain ⟨r, hr⟩ := Option.isSome_iff_exists.1 ((regAt_isSome_iff off).2 h)
  exact ⟨r, offset_of_regAt hr⟩

/-! ## Writes -/

/-- A 1 clears its bit and a 0 leaves it (20_memory.md R85). -/
theorem Status.writeOneToClear_eq_ite (t : Status) (v : Word) :
    t.writeOneToClear v = { t with
      done := if v.getLsbD 1 then false else t.done
      ovr := if v.getLsbD 2 then false else t.ovr } := by
  have hclear (b c : Bool) : (b && !c) = if c then false else b := by cases c <;> simp
  rw [Status.writeOneToClear, hclear, hclear]

/-- From `RESULT` on every register is read only (20_memory.md R85). -/
theorem writeReg_of_le_offset {r : Reg} (h : 0x28 ≤ r.offset.toNat) (v : Word) (s : State) : writeReg r v s = s := by
  cases r with
  | ctrl | status | cmd | opa | opb => exact absurd h (by decide)
  | _ => rfl

theorem writeReg_cmd_of_idle (hidle : s.status.busy = false) (v : Word) : writeReg .cmd v s = accept v s := by
  simp [writeReg, hidle]

theorem writeReg_cmd_of_busy (hbusy : s.status.busy = true) (v : Word) : writeReg .cmd v s = overrun s := by
  simp [writeReg, hbusy]

/-- A write of `CMD` to an idle block is accept (20_memory.md R88). -/
theorem hostWrite_cmd_of_idle (hrst : s.rstN = true) (hidle : s.status.busy = false) (v : Word) :
    hostWrite 0x10#7 64 v s = .next { accept v s with reply := .written } := by
  rw [← writeReg_cmd_of_idle hidle v]
  exact hostWrite_offset hrst .cmd v

/-- A dropped write of `CMD` and the port's answer to it (20_memory.md R89). -/
def answeredOverrun (s : State) : State := { overrun s with reply := .written }

/-- A write of `CMD` with a command in flight is an overrun (20_memory.md R89). -/
theorem hostWrite_cmd_of_busy (hrst : s.rstN = true) (hbusy : s.status.busy = true) (v : Word) :
    hostWrite 0x10#7 64 v s = .next (answeredOverrun s) := by
  rw [answeredOverrun, ← writeReg_cmd_of_busy hbusy v]
  exact hostWrite_offset hrst .cmd v

/-- Settles O6: each named offset is a register's, and from 0x28 on no register takes a write. -/
theorem hostWriteEffects : Obligations.HostWriteEffects := by
  intro s v hrst
  refine ⟨hostWrite_offset hrst .ctrl v, ?_, fun hidle => hostWrite_cmd_of_idle hrst hidle v,
    fun hbusy => hostWrite_cmd_of_busy hrst hbusy v, hostWrite_offset hrst .opa v, hostWrite_offset hrst .opb v, ?_⟩
  · rw [← Status.writeOneToClear_eq_ite]
    exact hostWrite_offset hrst .status v
  · intro off hle haligned
    obtain ⟨r, rfl⟩ := exists_reg_of_aligned haligned
    rw [hostWrite_offset hrst, writeReg_of_le_offset hle]

/-- Settles O11: the write is accept, whose status has `DONE` clear. -/
theorem acceptCopiesOperandsAndConfiguration : Obligations.AcceptCopiesOperandsAndConfiguration := by
  intro s v hrst hidle
  exact ⟨_, hostWrite_cmd_of_idle hrst hidle v, rfl, rfl⟩

/-! ## Reads -/

theorem toNat_bit (b : Bool) : (bit b).toNat = b.toNat := BitVec.toNat_ofBool b

theorem toNat_ctrlWord (ie : Bool) : (ctrlWord ie).toNat = ie.toNat := by
  rw [ctrlWord, toNat_append_add, toNat_bit]
  simp

theorem toNat_idWord (P : Params) : (idWord P).toNat = P.numRc + 3 * 2 ^ 8 + 64 * 2 ^ 16 := by
  have hlt : P.numRc < 2 ^ 8 := Nat.lt_succ_of_le P.numRc_le
  simp only [idWord, toNat_append_add, Config.maxBits, Config.defaultRounds, BitVec.toNat_ofNat,
    Nat.mod_eq_of_lt hlt]
  omega

theorem geomBits_toWord (g : Geom) : GeomBits g g.toWord := by
  simp only [GeomBits, Geom.toWord, toNat_append_add, BitVec.toNat_ofNat]
  omega

/-- Above its eight flag and reserved bits `STATUS` holds the code. -/
theorem Status.toNat_toWord_div (t : Status) : t.toWord.toNat / 2 ^ 8 = t.err.bits.toNat := by
  have hbit (b : Bool) : (bit b).toNat < 2 := (bit b).isLt
  have := hbit t.busy
  have := hbit t.done
  have := hbit t.ovr
  have := hbit t.rangeValid
  have := hbit t.feistelValid
  simp only [Status.toWord, toNat_append_add, BitVec.toNat_ofNat]
  omega

theorem statusBits_toWord (t : Status) : StatusBits t t.toWord := by
  refine ⟨?_, ?_, ?_, ?_, ?_, ?_, ?_, ?_, ?_⟩
  case refine_9 =>
    rw [t.toNat_toWord_div]
    cases t.err <;> rfl
  all_goals
    simp only [Status.toWord, bit, BitVec.getLsbD_append, BitVec.getLsbD_ofBool]
    simp

/-- The port's answer is no register (log 9). -/
theorem readReg_withReply (r : Reg) (x : PortReply) : readReg P r { s with reply := x } = readReg P r s := by
  cases r <;> rfl

/-- Settles O7: every offset reads its register, whose value does not depend on the port's last answer. -/
theorem windowReads : Obligations.WindowReads := by
  intro s hrst reads
  have hreads (r : Reg) : reads r.offset (readReg Config.params r s) := fun x => by
    rw [← readReg_withReply r x]
    exact hostRead_offset hrst r
  exact ⟨⟨_, hreads .ctrl, toNat_ctrlWord _⟩, ⟨_, hreads .status, statusBits_toWord _⟩, hreads .cmd,
    hreads .opa, hreads .opb, hreads .result, hreads .iterCount, hreads .cfgMin, hreads .cfgSize,
    ⟨_, hreads .cfgGeom, geomBits_toWord _⟩, hreads .cfgHalfMask, ⟨_, hreads .id, toNat_idWord _⟩,
    hreads (.reserved 0), hreads (.reserved 1), hreads (.reserved 2), hreads (.reserved 3)⟩

/-! ## Undefined accesses -/

theorem hostRead_of_not_accessed {off : BitVec 7} {width : Nat} (hrst : s.rstN = true)
    (h : accessed off width = none) : hostRead P off width s = .fault .busError := by
  simp [hostRead, hrst, h]

theorem hostWrite_of_not_accessed {off : BitVec 7} {width : Nat} (hrst : s.rstN = true)
    (h : accessed off width = none) (v : Word) : hostWrite off width v s = .fault .busError := by
  simp [hostWrite, hrst, h]

/-- Settles O9: no register stands at the offset for an access of that width. -/
theorem undefinedAccessIsBusError : Obligations.UndefinedAccessIsBusError := by
  intro s off width v hrst h
  have hnone : accessed off width = none := (accessed_eq_none_iff off width).2 h
  exact ⟨hostRead_of_not_accessed hrst hnone, hostWrite_of_not_accessed hrst hnone v⟩

/-! ## Bus addresses -/

/-- An address outside the window has no offset in it (20_memory.md R80). -/
theorem windowOffset_eq_none {addr : Nat} (h : addr < P.fpeBase ∨ P.fpeBase + 0x80 ≤ addr) :
    windowOffset P addr = none := by
  have hout : ¬ (P.fpeBase ≤ addr ∧ addr < P.fpeBase + 0x80) := by omega
  exact if_neg hout

theorem busRead_busAddress (P : Params) (off : BitVec 7) (width : Nat) :
    busRead P (busAddress P off) width = some (.read off width) := by
  rw [busRead, windowOffset_busAddress, Option.map_some]

theorem busWrite_busAddress (P : Params) (off : BitVec 7) (width : Nat) (v : Word) :
    busWrite P (busAddress P off) width v = some (.write off width v) := by
  rw [busWrite, windowOffset_busAddress, Option.map_some]

/-- Settles O10: the offset of a bus address inside the window and outside it. -/
theorem windowAddressing : Obligations.WindowAddressing := by
  intro P
  refine ⟨P.fpeBase_aligned, fun off width v => ?_, fun addr width v hout => ?_⟩
  · exact ⟨busRead_busAddress P off width, busWrite_busAddress P off width v⟩
  · have hnone := windowOffset_eq_none hout
    rw [busRead, busWrite, hnone, Option.map_none, Option.map_none]
    exact ⟨rfl, rfl⟩

/-! ## Overrun -/

/-- A change of the state that no completion sees and none undoes: it keeps the copies and commutes with every register
write of a completion (30_encoding.md R108, 60_exceptions.md R202). -/
structure UnseenByCompletion (g : State → State) : Prop where
  latch (s : State) : (g s).latch = s.latch
  raiseError_comm (c : Code) (s : State) : raiseError c (g s) = g (raiseError c s)
  setConfig_comm (n : Word) (c : CfgRegs) (rv fv : Bool) (s : State) :
    completeOk n (setConfig c rv fv (g s)) = g (completeOk n (setConfig c rv fv s))
  setResult_comm (n v : Word) (s : State) : completeOk n (setResult v (g s)) = g (completeOk n (setResult v s))

namespace UnseenByCompletion

variable {g : State → State} (hg : UnseenByCompletion g)

include hg

theorem opA (s : State) : (g s).opA = s.opA := by
  rw [State.opA, State.opA, hg.latch]

theorem opB (s : State) : (g s).opB = s.opB := by
  rw [State.opB, State.opB, hg.latch]

theorem halfWidth (s : State) : (g s).halfWidth = s.halfWidth := by
  rw [State.halfWidth, State.halfWidth, hg.latch]

theorem roundCount (s : State) : (g s).roundCount = s.roundCount := by
  rw [State.roundCount, State.roundCount, hg.latch]

theorem inFeistelDomain (s : State) : (g s).inFeistelDomain = s.inFeistelDomain := by
  rw [State.inFeistelDomain, State.inFeistelDomain, hg.opA, hg.halfWidth]

theorem inRange (s : State) : (g s).inRange = s.inRange := by
  rw [State.inRange, State.inRange, hg.opA, hg.latch]

theorem cfgRange_comm (r : Nat) (s : State) : cfgRange P r (g s) = mapNext g (cfgRange P r s) := by
  simp only [cfgRange, mapNext_next, apply_ite g, hg.opA, hg.opB, hg.raiseError_comm, hg.setConfig_comm]

theorem cfgFeistel_comm (r : Nat) (s : State) : cfgFeistel P r (g s) = mapNext g (cfgFeistel P r s) := by
  simp only [cfgFeistel, mapNext_next, apply_ite g, hg.opA, hg.raiseError_comm, hg.setConfig_comm]

theorem feistelCommand_comm (f : Nat → Nat → Word → Word) (s : State) :
    feistelCommand f (g s) = mapNext g (feistelCommand f s) := by
  simp only [feistelCommand, mapNext_next, apply_ite g, hg.latch, hg.opA, hg.halfWidth, hg.roundCount,
    hg.inFeistelDomain, hg.raiseError_comm, hg.setResult_comm]

theorem finishWalk_comm (min : Word) (walked : Option (Word × Nat)) (s : State) :
    finishWalk min walked (g s) = mapNext g (finishWalk min walked s) := by
  cases walked with
  | none => rfl
  | some p => exact congrArg _ (hg.setResult_comm _ _ s)

theorem rangeCommand_comm (w : Nat → Nat → Word → Word → Option (Word × Nat)) (s : State) :
    rangeCommand w (g s) = mapNext g (rangeCommand w s) := by
  simp only [rangeCommand, mapNext_next, apply_ite (mapNext g), hg.latch, hg.opA, hg.halfWidth, hg.roundCount,
    hg.inRange, hg.raiseError_comm, hg.finishWalk_comm]

theorem exec_comm (i : Instr) (s : State) : exec i (g s) = mapNext g (exec i s) := by
  cases i with
  | cfgRange r => exact hg.cfgRange_comm r s
  | cfgFeistel r => exact hg.cfgFeistel_comm r s
  | rangeEnc => exact hg.rangeCommand_comm (walkEnc Config.params) s
  | rangeDec => exact hg.rangeCommand_comm (walkDec Config.params) s
  | feistelEnc => exact hg.feistelCommand_comm (feistelEnc Config.params) s
  | feistelDec => exact hg.feistelCommand_comm (feistelDec Config.params) s

/-- The completion of any word, legal or not. -/
theorem completeCommand_comm (w : Word) (s : State) : completeCommand w (g s) = mapNext g (completeCommand w s) := by
  unfold completeCommand
  cases decode w with
  | ok i => exact hg.exec_comm i s
  | error e => exact congrArg _ (hg.raiseError_comm _ s)

end UnseenByCompletion

/-- No completion reads or writes `OVR` or the port's answer. -/
theorem unseenByCompletion_answeredOverrun : UnseenByCompletion answeredOverrun where
  latch _ := rfl
  raiseError_comm c _ := by cases c <;> rfl
  setConfig_comm _ _ _ _ _ := rfl
  setResult_comm _ _ _ := rfl

/-- An overrun does not disturb the command in flight. -/
theorem engineTurn_answeredOverrun (s : State) :
    engineTurn (answeredOverrun s) = mapNext answeredOverrun (engineTurn s) := by
  rw [engineTurn, engineTurn, apply_ite (mapNext answeredOverrun),
    ← unseenByCompletion_answeredOverrun.completeCommand_comm]
  rfl

/-- Settles O12: the write is an overrun, which commutes with the completion of the command in flight. -/
theorem overrunDropsTheCommand : Obligations.OverrunDropsTheCommand := by
  intro s t v hrst hbusy ht
  cases (hostWrite_cmd_of_busy hrst hbusy v).symm.trans ht
  refine ⟨rfl, fun u hu => ?_⟩
  calc engineTurn (answeredOverrun s) = mapNext answeredOverrun (engineTurn s) := engineTurn_answeredOverrun s
    _ = .next (answeredOverrun u) := by rw [hu, mapNext_next]

end Sys2Proof.Machine

/-! The command word (spec/30_encoding.md sections 1 and 2): what decodes is what is encoded, and the legal words are
R104's. -/

namespace Sys2Proof

/-! ## Decoding and encoding -/

theorem withoutRounds_eq_ok_iff {rounds : BitVec 8} {i j : Instr} :
    withoutRounds rounds i = .ok j ↔ rounds = 0#8 ∧ i = j := by
  unfold withoutRounds
  split <;> simp [*]

/-- A command is selected by its own `OP` and `ROUNDS`: a round count that fits the field is not cut off. -/
theorem decodeOp_of_wellFormed {i : Instr} (h : i.wellFormed = true) : decodeOp i.op i.roundsBits = .ok i := by
  cases i with
  | cfgRange r => exact congrArg (fun n => Except.ok (Instr.cfgRange n)) (toNat_ofNat_of_roundsFit h)
  | cfgFeistel r => exact congrArg (fun n => Except.ok (Instr.cfgFeistel n)) (toNat_ofNat_of_roundsFit h)
  | rangeEnc | rangeDec | feistelEnc | feistelDec => rfl

theorem roundsFit_toNat (rounds : BitVec 8) : roundsFit rounds.toNat = true :=
  (roundsFit_iff _).2 rounds.isLt

/-- What `OP` and `ROUNDS` select: the well-formed command with those fields (30_encoding.md R101, R102). -/
theorem decodeOp_eq_ok_iff {op : BitVec 4} {rounds : BitVec 8} {i : Instr} :
    decodeOp op rounds = .ok i ↔ i.op = op ∧ i.roundsBits = rounds ∧ i.wellFormed = true := by
  constructor
  · intro h
    unfold decodeOp at h
    split at h
    case h_1 hop | h_2 hop =>
      cases h
      exact ⟨BitVec.eq_of_toNat_eq hop.symm, by simp [Instr.roundsBits], roundsFit_toNat rounds⟩
    case h_3 hop | h_4 hop | h_5 hop | h_6 hop =>
      obtain ⟨rfl, rfl⟩ := withoutRounds_eq_ok_iff.1 h
      exact ⟨BitVec.eq_of_toNat_eq hop.symm, rfl, rfl⟩
    case h_7 => cases h
  · rintro ⟨rfl, rfl, h⟩
    exact decodeOp_of_wellFormed h

/-- Decoding inverts encoding on the well-formed commands, in both directions (30_encoding.md R106). -/
theorem decode_eq_ok_iff {w : Word} {i : Instr} : decode w = .ok i ↔ encode i = w ∧ i.wellFormed = true := by
  constructor
  · intro h
    obtain ⟨hhigh, hlow, hop⟩ := reserved_of_decode h
    obtain ⟨hop, hrounds, hwf⟩ := decodeOp_eq_ok_iff.1 hop
    refine ⟨?_, hwf⟩
    rw [word_of_fields w, hhigh, hlow, ← hop, ← hrounds, encode]
  · rintro ⟨rfl, hwf⟩
    rw [decode_of_reserved _ (reservedHigh_encode i) (reservedLow_encode i), opField_encode, roundsField_encode]
    exact decodeOp_of_wellFormed hwf

/-- Settles O2: `decode` inverts `encode`. -/
theorem decodeOfEncode : Obligations.DecodeOfEncode :=
  fun _ hwf => decode_eq_ok_iff.2 ⟨rfl, hwf⟩

/-- Settles O3: the four fields of a word that decodes are those of the command it decodes to. -/
theorem encodeOfDecode : Obligations.EncodeOfDecode :=
  fun _ _ h => decode_eq_ok_iff.1 h

/-- A row of at most 64 bits decodes as its word, and a longer one does not decode. -/
theorem decodeTableWord_eq_some_iff {nbits w : Nat} {i : Instr} :
    decodeTableWord nbits w = some i ↔ nbits ≤ 64 ∧ decode (tableWord nbits w) = .ok i := by
  by_cases h : nbits ≤ 64
  · rw [decodeTableWord_eq h]
    cases decode (tableWord nbits w) <;> simp [Except.toOption, h]
  · simp [decodeTableWord, h]

/-- Settles O1: each word is the encoding of its command. -/
theorem tableWordsDecode : Obligations.TableWordsDecode := by
  have hdecode {w : Word} {i : Instr} (henc : encode i = w) (hwf : i.wellFormed = true) : decode w = .ok i :=
    decode_eq_ok_iff.2 ⟨henc, hwf⟩
  exact ⟨hdecode rfl rfl, hdecode rfl rfl, hdecode rfl rfl, hdecode rfl rfl, hdecode rfl rfl, hdecode rfl rfl,
    hdecode rfl rfl, decodeTableWord_eq_some_iff.2 ⟨le_rfl, hdecode rfl rfl⟩,
    decodeTableWord_eq_some_iff.2 ⟨le_rfl, hdecode rfl rfl⟩⟩

/-! ## The round count in the word -/

theorem toNat_roundsField (w : Word) : (roundsField w).toNat = w.toNat / 256 % 256 := by
  rw [roundsField, BitVec.extractLsb'_toNat, Nat.shiftRight_eq_div_pow]

/-- A command word in numbers: `ROUNDS` at 256 and `OP` at 1 (30_encoding.md R100). -/
theorem encode_eq_ofNat (i : Instr) : encode i = BitVec.ofNat 64 (256 * i.roundsBits.toNat + i.op.toNat) := by
  have hrounds := i.roundsBits.isLt
  have hop := i.op.isLt
  apply BitVec.eq_of_toNat_eq
  simp only [encode, toNat_append_add, BitVec.toNat_ofNat]
  omega

theorem encode_cfgRange {r : Nat} (h : r ≤ 255) : encode (.cfgRange r) = BitVec.ofNat 64 (256 * r + 1) := by
  rw [encode_eq_ofNat, Instr.roundsBits, toNat_ofNat_of_roundsFit ((roundsFit_iff r).2 (by omega))]
  rfl

theorem encode_cfgFeistel {r : Nat} (h : r ≤ 255) : encode (.cfgFeistel r) = BitVec.ofNat 64 (256 * r + 2) := by
  rw [encode_eq_ofNat, Instr.roundsBits, toNat_ofNat_of_roundsFit ((roundsFit_iff r).2 (by omega))]
  rfl

/-- The `ROUNDS` field of a word that decodes is its command's. -/
theorem roundsField_of_decode {w : Word} {i : Instr} (h : decode w = .ok i) : roundsField w = i.roundsBits := by
  obtain ⟨rfl, -⟩ := decode_eq_ok_iff.1 h
  exact roundsField_encode i

/-- A round count that fits is read back from its field. -/
theorem rounds_eq_of_roundsField {w : Word} {r : Nat} (hfit : roundsFit r = true)
    (h : roundsField w = BitVec.ofNat 8 r) : r = w.toNat / 256 % 256 := by
  rw [← toNat_roundsField, h, toNat_ofNat_of_roundsFit hfit]

theorem rounds_of_decode {w : Word} {r : Nat} (h : decode w = .ok (.cfgRange r) ∨ decode w = .ok (.cfgFeistel r)) :
    r = w.toNat / 256 % 256 := by
  rcases h with h | h
  · exact rounds_eq_of_roundsField (decode_eq_ok_iff.1 h).2 (roundsField_of_decode h)
  · exact rounds_eq_of_roundsField (decode_eq_ok_iff.1 h).2 (roundsField_of_decode h)

/-! ## Legal words -/

theorem legalOp (i : Instr) : Laws.LegalOp.Statement i := by
  cases i with
  | cfgRange r => exact Laws.LegalOp.cfgRange r
  | cfgFeistel r => exact Laws.LegalOp.cfgFeistel r
  | rangeEnc => exact Laws.LegalOp.rangeEnc
  | rangeDec => exact Laws.LegalOp.rangeDec
  | feistelEnc => exact Laws.LegalOp.feistelEnc
  | feistelDec => exact Laws.LegalOp.feistelDec

/-- Every legal pair of `OP` and `ROUNDS` is some command's (30_encoding.md R101, R104). -/
theorem exists_decodeOp_of_legal {op : BitVec 4} {rounds : BitVec 8} (h1 : 1 ≤ op.toNat) (h6 : op.toNat ≤ 6)
    (h0 : 3 ≤ op.toNat → rounds = 0#8) : ∃ i, decodeOp op rounds = .ok i := by
  unfold decodeOp
  split
  case h_1 | h_2 => exact ⟨_, rfl⟩
  case h_3 hop | h_4 hop | h_5 hop | h_6 hop => exact ⟨_, withoutRounds_eq_ok_iff.2 ⟨h0 (by omega), rfl⟩⟩
  case h_7 =>
    simp only [imp_false] at *
    omega

/-- The legal words of 30_encoding.md R104 are the words that decode. -/
theorem legalWord_iff (w : Word) : Machine.LegalWord w ↔ ∃ i, decode w = .ok i := by
  constructor
  · rintro ⟨h1, h6, hlow, hhigh, h0⟩
    rw [decode_of_reserved w hhigh hlow]
    exact exists_decodeOp_of_legal h1 h6 h0
  · rintro ⟨i, h⟩
    obtain ⟨hhigh, hlow, hop⟩ := reserved_of_decode h
    obtain ⟨hop, hrounds, -⟩ := decodeOp_eq_ok_iff.1 hop
    obtain ⟨h1, h6, h0⟩ := legalOp i
    rw [hop] at h1 h6 h0
    exact ⟨h1, h6, hlow, hhigh, fun h3 => hrounds.symm.trans (h0 h3)⟩

end Sys2Proof

/-! The completion of a command word (spec/30_encoding.md section 3, spec/60_exceptions.md R203): which command the
engine's turn runs, what an illegal word does, and what a success completion changes. -/

namespace Sys2Proof.Machine

variable {s t : State}

/-! ## The engine's turn -/

theorem engineTurn_of_busy (hrst : s.rstN = true) (hbusy : s.status.busy = true) :
    engineTurn s = completeCommand s.latch.cmd s := by
  simp [engineTurn, hrst, hbusy]

theorem engineTurn_of_decode {i : Instr} (hrst : s.rstN = true) (hbusy : s.status.busy = true)
    (h : decode s.latch.cmd = .ok i) : engineTurn s = exec i s :=
  (engineTurn_of_busy hrst hbusy).trans (completeCommand_of_decode h s)

theorem step_of_engine {rest : List Input} (h : s.inputs = .engine :: rest) :
    step s = engineTurn { s with inputs := rest } := by
  rw [step, takeInput, h]
  rfl

theorem step_of_no_inputs (h : s.inputs = []) : step s = engineTurn s := by
  rw [step, takeInput, h]

/-- Settles O48: both steps are the engine's turn, which runs the word in flight. -/
theorem stepRunsTheDecodedCommand : Obligations.StepRunsTheDecodedCommand := by
  intro s i rest hrst hbusy hdecode
  refine ⟨fun hinputs => ?_, fun hinputs => ?_⟩
  · rw [step_of_engine hinputs]
    exact engineTurn_of_decode hrst hbusy hdecode
  · rw [step_of_no_inputs hinputs]
    exact engineTurn_of_decode hrst hbusy hdecode

/-- Settles O49: the placed word is in flight with the engine's turn next. -/
theorem placedCommandRunsNext : Obligations.PlacedCommandRunsNext := by
  intro s nbits w i h
  obtain ⟨-, hdecode⟩ := decodeTableWord_eq_some_iff.1 h
  obtain ⟨hstep, -⟩ := stepRunsTheDecodedCommand (s.withFetchWord nbits w) i s.inputs rfl rfl hdecode
  exact hstep rfl

/-! ## Illegal words -/

theorem completeCommand_of_illegal {w : Word} (h : ¬ LegalWord w) (s : State) :
    completeCommand w s = .next (raiseError .illegalCmd s) := by
  rcases completeCommand_cases w s with ⟨i, hdecode, -⟩ | ⟨e, -, ho⟩
  · exact absurd ((legalWord_iff w).2 ⟨i, hdecode⟩) h
  · exact ho

/-- Settles O4: the legal words are those that decode; accept does not decode, and any other word in flight raises
`ILLEGAL_CMD`, which is no configuration error. -/
theorem legalWordsExactly : Obligations.LegalWordsExactly := by
  refine ⟨legalWord_iff, fun w s hw => ⟨fun hrst hidle => hostWrite_cmd_of_idle hrst hidle w, ?_⟩⟩
  rintro hrst hbusy rfl
  rw [engineTurn_of_busy hrst hbusy, completeCommand_of_illegal hw]
  rfl

/-! ## Round counts above the table -/

theorem cfgRange_of_numRc_lt {P : Params} {r : Nat} (hab : s.latch.a < s.latch.b) (hr : P.numRc < r) :
    cfgRange P r s = .next (raiseError .roundsExceedTable s) := by
  rcases cfgRange_cases P r s with ⟨hba, -⟩ | ⟨-, -, ho⟩ | ⟨-, hle, -⟩
  · exact absurd hba (BitVec.not_le.2 hab)
  · exact ho
  · omega

theorem cfgFeistel_of_numRc_lt {P : Params} {r : Nat} (ha : s.latch.a.toNat ≤ 64) (hr : P.numRc < r) :
    cfgFeistel P r s = .next (raiseError .roundsExceedTable s) := by
  rcases cfgFeistel_cases P r s with ⟨hwide, -⟩ | ⟨-, -, ho⟩ | ⟨-, hle, -⟩
  · omega
  · exact ho
  · omega

/-- Settles O5: the field read as a number, the words that hold each count, and the check against `NUM_RC`. -/
theorem roundsFieldIsUnscaled : Obligations.RoundsFieldIsUnscaled := by
  refine ⟨fun w r h => rounds_of_decode h, fun r hr => ?_, fun s r hr => ⟨fun hab => ?_, fun ha => ?_⟩⟩
  · have hfit : roundsFit r = true := (roundsFit_iff r).2 (by omega)
    exact ⟨decode_eq_ok_iff.2 ⟨encode_cfgRange hr, hfit⟩, decode_eq_ok_iff.2 ⟨encode_cfgFeistel hr, hfit⟩⟩
  · exact ⟨_, cfgRange_of_numRc_lt hab hr, (raiseError_outputs _ s).1⟩
  · exact ⟨_, cfgFeistel_of_numRc_lt ha hr, (raiseError_outputs _ s).1⟩

/-! ## Success completions -/

theorem raiseError_err_ne_ok {c : Code} (hc : c ≠ .ok) (s : State) : (raiseError c s).status.err ≠ .ok := by
  rwa [(raiseError_outputs c s).1]

/-- `t` is `s` with a result written and completed, as after an encode or decode (30_encoding.md R108). -/
def CompletedWithResult (s t : State) : Prop := ∃ n v, t = completeOk n (setResult v s)

/-- `t` is `s` with a configuration written and completed, as after a configuration command (30_encoding.md R108). -/
def CompletedWithConfig (s t : State) : Prop := ∃ c rv fv, t = completeOk 0#64 (setConfig c rv fv s)

theorem cfgRange_ok {P : Params} {r : Nat} (ht : cfgRange P r s = .next t) (hok : t.status.err = .ok) :
    CompletedWithConfig s t := by
  rcases cfgRange_cases P r s with ⟨-, ho⟩ | ⟨-, -, ho⟩ | ⟨-, -, ho⟩ <;> cases ho.symm.trans ht
  · exact absurd hok (raiseError_err_ne_ok (by decide) s)
  · exact absurd hok (raiseError_err_ne_ok (by decide) s)
  · exact ⟨_, _, _, rfl⟩

theorem cfgFeistel_ok {P : Params} {r : Nat} (ht : cfgFeistel P r s = .next t) (hok : t.status.err = .ok) :
    CompletedWithConfig s t := by
  rcases cfgFeistel_cases P r s with ⟨-, ho⟩ | ⟨-, -, ho⟩ | ⟨-, -, ho⟩ <;> cases ho.symm.trans ht
  · exact absurd hok (raiseError_err_ne_ok (by decide) s)
  · exact absurd hok (raiseError_err_ne_ok (by decide) s)
  · exact ⟨_, _, _, rfl⟩

theorem feistelCommand_ok {f : Nat → Nat → Word → Word} (ht : feistelCommand f s = .next t)
    (hok : t.status.err = .ok) : CompletedWithResult s t := by
  rcases feistelCommand_cases f s with ⟨-, ho⟩ | ⟨-, -, ho⟩ | ⟨-, -, ho⟩ <;> cases ho.symm.trans ht
  · exact absurd hok (raiseError_err_ne_ok (by decide) s)
  · exact absurd hok (raiseError_err_ne_ok (by decide) s)
  · exact ⟨_, _, rfl⟩

theorem rangeCommand_ok {w : Nat → Nat → Word → Word → Option (Word × Nat)} (ht : rangeCommand w s = .next t)
    (hok : t.status.err = .ok) : CompletedWithResult s t := by
  rcases rangeCommand_cases w s with ⟨-, ho⟩ | ⟨-, -, ho⟩ | ⟨-, -, ho⟩
  · cases ho.symm.trans ht
    exact absurd hok (raiseError_err_ne_ok (by decide) s)
  · cases ho.symm.trans ht
    exact absurd hok (raiseError_err_ne_ok (by decide) s)
  · obtain ⟨x, n, -, rfl⟩ := finishWalk_next (ho.symm.trans ht)
    exact ⟨_, _, rfl⟩

/-- Everything a command that succeeds can do. -/
theorem exec_ok {i : Instr} (ht : exec i s = .next t) (hok : t.status.err = .ok) :
    (i.isCompute = true ∧ CompletedWithResult s t) ∨ (i.isCompute = false ∧ CompletedWithConfig s t) := by
  cases i with
  | cfgRange r => exact .inr ⟨rfl, cfgRange_ok ht hok⟩
  | cfgFeistel r => exact .inr ⟨rfl, cfgFeistel_ok ht hok⟩
  | rangeEnc | rangeDec => exact .inl ⟨rfl, rangeCommand_ok ht hok⟩
  | feistelEnc | feistelDec => exact .inl ⟨rfl, feistelCommand_ok ht hok⟩

/-- Settles O43: a success completion writes a result or a configuration, and then completes. -/
theorem successCompletionEffect : Obligations.SuccessCompletionEffect := by
  intro i s t ht hok
  rcases exec_ok ht hok with ⟨hi, n, v, rfl⟩ | ⟨hi, c, rv, fv, rfl⟩ <;> rw [hi]
  · exact ⟨rfl, nofun⟩
  · exact ⟨rfl, fun _ => rfl⟩

/-! ## Pseudo-instructions -/

theorem wrCmd_of_wellFormed {i : Instr} (h : i.wellFormed = true) : wrCmd i = some (.wr .cmd (encode i)) := by
  simp [wrCmd, assemble, h]

theorem wrCmd_of_not_wellFormed {i : Instr} (h : i.wellFormed = false) : wrCmd i = none := by
  simp [wrCmd, assemble, h]

theorem roundsFit_eq_false {r : Nat} (h : 255 < r) : roundsFit r = false := by
  rw [Bool.eq_false_iff, Ne, roundsFit_iff]
  omega

theorem wrCmd_cfgRange {r : Nat} (h : r ≤ 255) :
    wrCmd (.cfgRange r) = some (.wr .cmd (BitVec.ofNat 64 (256 * r + 1))) := by
  rw [← encode_cfgRange h]
  exact wrCmd_of_wellFormed ((roundsFit_iff r).2 (by omega))

theorem wrCmd_cfgFeistel {r : Nat} (h : r ≤ 255) :
    wrCmd (.cfgFeistel r) = some (.wr .cmd (BitVec.ofNat 64 (256 * r + 2))) := by
  rw [← encode_cfgFeistel h]
  exact wrCmd_of_wellFormed ((roundsFit_iff r).2 (by omega))

theorem expand_prange {r : Nat} (h : r ≤ 255) (mn mx : Word) :
    (Pseudo.prange mn mx (some r)).expand =
      some [.wr .opa mn, .wr .opb mx, .wr .cmd (BitVec.ofNat 64 (256 * r + 1)), .wait] := by
  rw [Pseudo.expand, Option.getD_some, wrCmd_cfgRange h, Option.map_some]

theorem expand_pfeistel {r : Nat} (h : r ≤ 255) (v : Word) :
    (Pseudo.pfeistel v r).expand = some [.wr .opa v, .wr .cmd (BitVec.ofNat 64 (256 * r + 2)), .wait] := by
  rw [Pseudo.expand, wrCmd_cfgFeistel h, Option.map_some]

theorem computeOps_of_wellFormed {i : Instr} (h : i.wellFormed = true) (v : Word) :
    computeOps v i = some [.wr .opa v, .wr .cmd (encode i), .wait, .rd .result] := by
  rw [computeOps, wrCmd_of_wellFormed h, Option.map_some]

/-- Settles O58: the assembler takes exactly the commands whose round count fits, and a `prange` without one is the
`prange` with `DEFAULT_ROUNDS`. -/
theorem pseudoInstructionsExpand : Obligations.PseudoInstructionsExpand := by
  refine ⟨fun mn mx v r hr => ?_, fun mn mx v r hr => ?_⟩
  · have hcompute (i : Instr) (h : i.wellFormed = true) := computeOps_of_wellFormed h v
    exact ⟨expand_prange hr mn mx, expand_prange (r := Config.defaultRounds) (by decide) mn mx, expand_pfeistel hr v,
      hcompute .rangeEnc rfl, hcompute .rangeDec rfl, hcompute .feistelEnc rfl, hcompute .feistelDec rfl, rfl⟩
  · have hfit : roundsFit r = false := roundsFit_eq_false hr
    rw [Pseudo.expand, Pseudo.expand, Option.getD_some, wrCmd_of_not_wellFormed (i := .cfgRange r) hfit,
      wrCmd_of_not_wellFormed (i := .cfgFeistel r) hfit]
    exact ⟨rfl, rfl⟩

end Sys2Proof.Machine

/-! The round function (spec/40_round_function.md R121 to R123): each step of `mixOfSum` loses nothing, so the whole is a
bijection, and it sends 0 to 0. -/

namespace Sys2Proof.Machine

/-! ## Xor-shift steps -/

/-- Where `s ^ shift s` and `t ^ shift t` are equal, the shift does not move `s ^ t`, so `s ^ t` is 0. -/
theorem xor_shift_injective {shift : Word → Word} (hxor : ∀ s t, shift (s ^^^ t) = shift s ^^^ shift t)
    (hfix : ∀ s, shift s = s → s = 0#64) : Function.Injective fun s => s ^^^ shift s := by
  intro s t (h : s ^^^ shift s = t ^^^ shift t)
  have hdiff : shift (s ^^^ t) ^^^ (s ^^^ t) = 0#64 :=
    calc shift (s ^^^ t) ^^^ (s ^^^ t) = (s ^^^ shift s) ^^^ (t ^^^ shift t) := by rw [hxor]; ac_rfl
      _ = 0#64 := by rw [h, BitVec.xor_self]
  have hfixed : shift (s ^^^ t) = s ^^^ t := BitVec.xor_eq_zero_iff.1 hdiff
  exact BitVec.xor_eq_zero_iff.1 (hfix _ hfixed)

theorem eq_zero_of_ushiftRight_eq_self {k : Nat} (hk : 1 ≤ k) {s : Word} (h : s >>> k = s) : s = 0#64 := by
  have hdiv : s.toNat / 2 ^ k = s.toNat := by
    rw [← Nat.shiftRight_eq_div_pow, ← BitVec.toNat_ushiftRight, h]
  rcases Nat.div_eq_self.1 hdiv with hzero | hone
  · exact BitVec.eq_of_toNat_eq hzero
  · exact absurd hone (Nat.one_lt_two_pow (by omega)).ne'

/-- A word that a shift by `k` does not move is not moved by 64 of them, which leave no bit of it. -/
theorem eq_zero_of_shiftLeft_eq_self {k : Nat} (hk : 1 ≤ k) {s : Word} (h : s <<< k = s) : s = 0#64 := by
  have hmany (n : Nat) : s <<< (k * n) = s := by
    induction n with
    | zero => exact BitVec.shiftLeft_zero s
    | succ n ih => rw [Nat.mul_succ, BitVec.shiftLeft_add, ih, h]
  rw [← hmany 64]
  exact BitVec.shiftLeft_eq_zero (by omega)

theorem xorShiftRight_injective {k : Nat} (hk : 1 ≤ k) : Function.Injective (xorShiftRight k) :=
  xor_shift_injective (fun s t => BitVec.ushiftRight_xor_distrib s t k) fun _ => eq_zero_of_ushiftRight_eq_self hk

theorem xorShiftLeft_injective {k : Nat} (hk : 1 ≤ k) : Function.Injective (xorShiftLeft k) :=
  xor_shift_injective (fun s t => BitVec.shiftLeft_xor_distrib s t k) fun _ => eq_zero_of_shiftLeft_eq_self hk

@[simp] theorem xorShiftRight_zero (k : Nat) : xorShiftRight k 0#64 = 0#64 := by simp [xorShiftRight]

@[simp] theorem xorShiftLeft_zero (k : Nat) : xorShiftLeft k 0#64 = 0#64 := by simp [xorShiftLeft]

/-! ## The product and the whole -/

/-- An odd factor is coprime to 2^64, so it cancels modulo 2^64. -/
theorem mul_odd_injective {m : Word} (hodd : m.toNat % 2 = 1) : Function.Injective fun s : Word => s * m := by
  intro s t (h : s * m = t * m)
  have hcoprime : Nat.gcd (2 ^ 64) m.toNat = 1 :=
    Nat.Coprime.pow_left 64 (Nat.coprime_two_left.2 (Nat.odd_iff.2 hodd))
  have hmod : s.toNat * m.toNat ≡ t.toNat * m.toNat [MOD 2 ^ 64] := by
    rw [Nat.ModEq, ← BitVec.toNat_mul, ← BitVec.toNat_mul, h]
  exact BitVec.eq_of_toNat_eq ((hmod.cancel_right_of_coprime hcoprime).eq_of_lt_of_lt s.isLt t.isLt)

theorem mixOfSum_injective (P : Params) : Function.Injective (mixOfSum P) :=
  (mul_odd_injective P.mixM_odd).comp <| (xorShiftRight_injective P.mixS3_ge).comp <|
    (xorShiftLeft_injective P.mixS2_ge).comp (xorShiftRight_injective P.mixS1_ge)

theorem mixOfSum_zero (P : Params) : mixOfSum P 0#64 = 0#64 := by simp [mixOfSum]

/-- Settles O18: a composition of injective steps on a finite type is a bijection, and it reaches 0 from 0 alone. -/
theorem mixIsABijectionOfTheSum : Obligations.MixIsABijectionOfTheSum := by
  intro P
  have hinj : Function.Injective (mixOfSum P) := mixOfSum_injective P
  exact ⟨hinj.bijective_of_finite, mixOfSum_zero P, fun _ _ => hinj.eq_iff' (mixOfSum_zero P)⟩

theorem mix_comm (P : Params) (a b : Word) : mix P a b = mix P b a := congrArg (mixOfSum P) (BitVec.add_comm a b)

/-- Settles O17: `mix` is `mixOfSum` of the sum, and the sum is symmetric. -/
theorem mixDependsOnTheSum : Obligations.MixDependsOnTheSum := by
  intro P a b c d
  exact ⟨mix_comm P a b, congrArg (mixOfSum P), rfl⟩

end Sys2Proof.Machine

/-! The Feistel core (spec/41_feistel.md section 3): the inverse rounds undo the rounds, so both functions permute the
domain; the identity cases and the closed forms of one and two rounds. -/

namespace Sys2Proof.Machine

variable {P : Params} {h : Nat}

/-! ## The rounds undo each other -/

theorem decRounds_encRounds (P : Params) (h r : Nat) (p : Halves) : decRounds P h r (encRounds P h r p) = p := by
  induction r with
  | zero => rfl
  | succ r ih => rw [encRounds, decRounds, decRound_encRound, ih]

theorem encRounds_decRounds (P : Params) (h r : Nat) (p : Halves) : encRounds P h r (decRounds P h r p) = p := by
  induction r generalizing p with
  | zero => rfl
  | succ r ih => rw [decRounds, encRounds, ih, encRound_decRound]

section
variable (hh : h ≤ 32) (r : Nat) {m : Word} (hm : m.toNat < 2 ^ (2 * h))
include hh hm

theorem feistelDec_feistelEnc : feistelDec P h r (feistelEnc P h r m) = m := by
  rw [feistelDec, splitBlock_feistelEnc hh hm, decRounds_encRounds, joinHalves_splitBlock hh hm]

theorem feistelEnc_feistelDec : feistelEnc P h r (feistelDec P h r m) = m := by
  rw [feistelEnc, splitBlock_feistelDec hh hm, encRounds_decRounds, joinHalves_splitBlock hh hm]

theorem feistelEnc_lt : (feistelEnc P h r m).toNat < 2 ^ (2 * h) :=
  joinHalves_lt hh (encRounds_below hh r (splitBlock_below hh hm))

theorem feistelDec_lt : (feistelDec P h r m).toNat < 2 ^ (2 * h) :=
  joinHalves_lt hh (decRounds_below hh r (splitBlock_below hh hm))

end

/-- Settles O19: the halves survive joining and splitting, and the rounds undo each other last round first. -/
theorem feistelDecodeInvertsEncode : Obligations.FeistelDecodeInvertsEncode :=
  fun _ _ r _ hh hm => ⟨feistelDec_feistelEnc hh r hm, feistelEnc_feistelDec hh r hm⟩

theorem mapsTo_feistelEnc (hh : h ≤ 32) (r : Nat) :
    Set.MapsTo (feistelEnc P h r) (feistelDomain h) (feistelDomain h) := fun _ hm => feistelEnc_lt hh r hm

theorem mapsTo_feistelDec (hh : h ≤ 32) (r : Nat) :
    Set.MapsTo (feistelDec P h r) (feistelDomain h) (feistelDomain h) := fun _ hm => feistelDec_lt hh r hm

theorem invOn_feistelDec_feistelEnc (hh : h ≤ 32) (r : Nat) :
    Set.InvOn (feistelDec P h r) (feistelEnc P h r) (feistelDomain h) (feistelDomain h) :=
  ⟨fun _ hm => feistelDec_feistelEnc hh r hm, fun _ hm => feistelEnc_feistelDec hh r hm⟩

/-- Settles O20: two maps of the domain into itself that are inverse on it. -/
theorem feistelIsABijectionOfItsDomain : Obligations.FeistelIsABijectionOfItsDomain := by
  intro P h r hh
  have hinv := invOn_feistelDec_feistelEnc (P := P) hh r
  exact ⟨hinv.bijOn (mapsTo_feistelEnc hh r) (mapsTo_feistelDec hh r),
    hinv.symm.bijOn (mapsTo_feistelDec hh r) (mapsTo_feistelEnc hh r)⟩

/-- Settles O21: the split halves are below `2^h`, every round keeps them there, and joining them stays in the domain. -/
theorem feistelStaysInItsDomain : Obligations.FeistelStaysInItsDomain := by
  intro P h r m hh hm
  have hsplit : (splitBlock h m).Below h := splitBlock_below hh hm
  refine ⟨feistelEnc_lt hh r hm, feistelDec_lt hh r hm, fun k => ?_⟩
  obtain ⟨hencLeft, hencRight⟩ := encRounds_below (P := P) hh k hsplit
  obtain ⟨hdecLeft, hdecRight⟩ := decRounds_below (P := P) hh k hsplit
  exact ⟨hencLeft, hencRight, hdecLeft, hdecRight⟩

/-! ## Identity cases -/

/-- The domain of half width 0 is `{0}` (41_feistel.md R145). -/
theorem mem_feistelDomain_zero_iff (m : Word) : m ∈ feistelDomain 0 ↔ m = 0#64 := by
  calc m ∈ feistelDomain 0 ↔ m.toNat < 1 := Iff.rfl
    _ ↔ m.toNat = 0 := Nat.lt_one_iff
    _ ↔ m = 0#64 := BitVec.toNat_inj (y := 0#64)

/-- Settles O22: without rounds a function only splits and joins, and with half width 0 it stays in `{0}`. -/
theorem feistelIdentityCases : Obligations.FeistelIdentityCases := by
  intro P
  have hzero : 0#64 ∈ feistelDomain 0 := (mem_feistelDomain_zero_iff _).2 rfl
  refine ⟨fun h m hh hm => ⟨joinHalves_splitBlock hh hm, joinHalves_splitBlock hh hm⟩, mem_feistelDomain_zero_iff,
    fun r => ⟨?_, ?_⟩⟩
  · exact (mem_feistelDomain_zero_iff _).1 (feistelEnc_lt (Nat.zero_le _) r hzero)
  · exact (mem_feistelDomain_zero_iff _).1 (feistelDec_lt (Nat.zero_le _) r hzero)

/-! ## Closed forms -/

theorem toNat_splitBlock_left (h : Nat) (m : Word) : (splitBlock h m).left.toNat = m.toNat / 2 ^ h := by
  rw [splitBlock, BitVec.toNat_ushiftRight, Nat.shiftRight_eq_div_pow]

theorem toNat_splitBlock_right (hh : h ≤ 32) (m : Word) : (splitBlock h m).right.toNat = m.toNat % 2 ^ h :=
  toNat_and_halfMaskOf (by omega) m

/-- The round value in numbers (41_feistel.md R140). -/
theorem toNat_roundValue (hh : h ≤ 32) (i : Nat) (v : Word) :
    (roundValue P h i v).toNat = (mix P (BitVec.ofNat 64 v.toNat) (P.rc i)).toNat % 2 ^ h := by
  rw [roundValue, toNat_and_halfMaskOf (by omega), BitVec.ofNat_toNat, BitVec.setWidth_eq]

/-- The new right half of round `i` in numbers. -/
theorem toNat_encRound_right (hh : h ≤ 32) (i : Nat) (p : Halves) : (encRound P h i p).right.toNat =
    p.left.toNat ^^^ (mix P (BitVec.ofNat 64 p.right.toNat) (P.rc i)).toNat % 2 ^ h := by
  rw [encRound, BitVec.toNat_xor, toNat_roundValue hh]

/-- The new left half of round `i` undone, in numbers. -/
theorem toNat_decRound_left (hh : h ≤ 32) (i : Nat) (p : Halves) : (decRound P h i p).left.toNat =
    p.right.toNat ^^^ (mix P (BitVec.ofNat 64 p.left.toNat) (P.rc i)).toNat % 2 ^ h := by
  rw [decRound, BitVec.toNat_xor, toNat_roundValue hh]

theorem toNat_feistelEnc (hh : h ≤ 32) (r : Nat) {m : Word} (hm : m.toNat < 2 ^ (2 * h)) :
    (feistelEnc P h r m).toNat = (encRounds P h r (splitBlock h m)).left.toNat * 2 ^ h +
      (encRounds P h r (splitBlock h m)).right.toNat :=
  toNat_joinHalves hh (encRounds_below hh r (splitBlock_below hh hm))

theorem toNat_feistelDec (hh : h ≤ 32) (r : Nat) {m : Word} (hm : m.toNat < 2 ^ (2 * h)) :
    (feistelDec P h r m).toNat = (decRounds P h r (splitBlock h m)).left.toNat * 2 ^ h +
      (decRounds P h r (splitBlock h m)).right.toNat :=
  toNat_joinHalves hh (decRounds_below hh r (splitBlock_below hh hm))

/-- Settles O23: a round passes one half on and computes the other, here from the halves of the split. -/
theorem feistelClosedForms : Obligations.FeistelClosedForms := by
  intro P h m hh hm L R F N1
  have hL : (splitBlock h m).left.toNat = L := toNat_splitBlock_left h m
  have hR : (splitBlock h m).right.toNat = R := toNat_splitBlock_right hh m
  have hN1 : (encRound P h 0 (splitBlock h m)).right.toNat = N1 := by
    rw [toNat_encRound_right hh, hL, hR]
  have hN2 : (encRound P h 1 (encRound P h 0 (splitBlock h m))).right.toNat = R ^^^ F 1 N1 := by
    rw [toNat_encRound_right hh, hN1, ← hR]
    rfl
  have hD1 : (decRound P h 0 (splitBlock h m)).left.toNat = R ^^^ F 0 L := by
    rw [toNat_decRound_left hh, hL, hR]
  refine ⟨?_, ?_, ?_⟩
  · calc (feistelEnc P h 1 m).toNat = (splitBlock h m).right.toNat * 2 ^ h +
          (encRound P h 0 (splitBlock h m)).right.toNat := toNat_feistelEnc hh 1 hm
      _ = R * 2 ^ h + N1 := by rw [hR, hN1]
  · calc (feistelDec P h 1 m).toNat = (decRound P h 0 (splitBlock h m)).left.toNat * 2 ^ h +
          (splitBlock h m).left.toNat := toNat_feistelDec hh 1 hm
      _ = (R ^^^ F 0 L) * 2 ^ h + L := by rw [hD1, hL]
  · calc (feistelEnc P h 2 m).toNat = (encRound P h 0 (splitBlock h m)).right.toNat * 2 ^ h +
          (encRound P h 1 (encRound P h 0 (splitBlock h m))).right.toNat := toNat_feistelEnc hh 2 hm
      _ = N1 * 2 ^ h + (R ^^^ F 1 N1) := by rw [hN1, hN2]

end Sys2Proof.Machine

/-! The commands that reach the Feistel core (spec/41_feistel.md section 4): `CFG_FEISTEL`, `FEISTEL_ENC` and `FEISTEL_DEC`,
branch by branch. -/

namespace Sys2Proof.Machine

variable {s : State}

/-! ## `FEISTEL_ENC` and `FEISTEL_DEC` -/

section
variable {f : Nat → Nat → Word → Word}

/-- The operand is in the latched Feistel domain, in numbers. -/
theorem inFeistelDomain_iff (s : State) :
    s.inFeistelDomain = true ↔ s.latch.a.toNat < 2 ^ (2 * s.latch.cfg.geom.h.toNat) := decide_eq_true_iff

theorem feistelCommand_of_not_configured (hv : s.latch.feistelValid = false) :
    feistelCommand f s = .next (raiseError .notConfigured s) := by
  rcases feistelCommand_cases f s with ⟨-, ho⟩ | ⟨hv', -⟩ | ⟨hv', -⟩
  · exact ho
  · exact nomatch hv.symm.trans hv'
  · exact nomatch hv.symm.trans hv'

theorem feistelCommand_of_outside (hv : s.latch.feistelValid = true)
    (ha : 2 ^ (2 * s.latch.cfg.geom.h.toNat) ≤ s.latch.a.toNat) :
    feistelCommand f s = .next (raiseError .outOfDomain s) := by
  rcases feistelCommand_cases f s with ⟨hv', -⟩ | ⟨-, -, ho⟩ | ⟨-, hin, -⟩
  · exact nomatch hv.symm.trans hv'
  · exact ho
  · exact absurd ((inFeistelDomain_iff s).1 hin) (Nat.not_lt.2 ha)

theorem feistelCommand_of_inside (hv : s.latch.feistelValid = true)
    (ha : s.latch.a.toNat < 2 ^ (2 * s.latch.cfg.geom.h.toNat)) :
    feistelCommand f s = .next (completeOk 1#64
      (setResult (f s.latch.cfg.geom.h.toNat s.latch.cfg.geom.rounds.toNat s.latch.a) s)) := by
  rcases feistelCommand_cases f s with ⟨hv', -⟩ | ⟨-, hout, -⟩ | ⟨-, -, ho⟩
  · exact nomatch hv.symm.trans hv'
  · exact nomatch ((inFeistelDomain_iff s).2 ha).symm.trans hout
  · exact ho

end

/-- Settles O32: the three branches of the command, with the forward function. -/
theorem feistelEncCompletes : Obligations.FeistelEncCompletes := by
  intro s
  exact ⟨decode_eq_ok_iff.2 ⟨rfl, rfl⟩, fun hv ha => feistelCommand_of_inside hv ha,
    fun hv => feistelCommand_of_not_configured hv, fun hv ha => feistelCommand_of_outside hv ha⟩

/-- Settles O33: the three branches of the command, with the inverse function. -/
theorem feistelDecCompletes : Obligations.FeistelDecCompletes := by
  intro s
  exact ⟨decode_eq_ok_iff.2 ⟨rfl, rfl⟩, fun hv ha => feistelCommand_of_inside hv ha,
    fun hv => feistelCommand_of_not_configured hv, fun hv ha => feistelCommand_of_outside hv ha⟩

/-- A valid Feistel configuration has a half width of at most 32 (10_state.md R62). -/
theorem State.CfgInv.halfWidth_le {P : Params} (hinv : s.CfgInv P) (hv : s.status.feistelValid = true) :
    s.cfg.geom.h.toNat ≤ 32 := by
  obtain ⟨⟨hH, -⟩, hwidth, -⟩ := hinv
  obtain ⟨hW, -⟩ := hwidth hv
  rw [hH]
  omega

/-- Settles O34: the configuration stands between the two commands, and the second function undoes the first on it. -/
theorem feistelCommandsInvertEachOther : Obligations.FeistelCommandsInvertEachOther := by
  intro s m hinv hv hm
  have hh : s.cfg.geom.h.toNat ≤ 32 := hinv.halfWidth_le hv
  refine ⟨_, _, feistelCommand_of_inside (s := accept (encode .feistelEnc) { s with opa := m }) hv hm,
    feistelCommand_of_inside hv (feistelEnc_lt hh _ hm), ?_, rfl, rfl, rfl⟩
  exact feistelDec_feistelEnc hh _ hm

/-! ## `CFG_FEISTEL` -/

theorem cfgFeistel_of_too_wide {P : Params} {r : Nat} (ha : 64 < s.latch.a.toNat) :
    cfgFeistel P r s = .next (raiseError .bitsTooWide s) := by
  rcases cfgFeistel_cases P r s with ⟨-, ho⟩ | ⟨hle, -⟩ | ⟨hle, -⟩
  · exact ho
  · omega
  · omega

theorem cfgFeistel_of_legal {P : Params} {r : Nat} (ha : s.latch.a.toNat ≤ 64) (hr : r ≤ P.numRc) :
    cfgFeistel P r s =
      .next (completeOk 0#64 (setConfig (configFor 0#64 0#64 s.latch.a.toNat r) false true s)) := by
  rcases cfgFeistel_cases P r s with ⟨hwide, -⟩ | ⟨-, hlt, -⟩ | ⟨-, -, ho⟩
  · omega
  · omega
  · exact ho

/-- Settles O30: the three branches of the command, and the fields of the configuration it writes. -/
theorem cfgFeistelConfigures : Obligations.CfgFeistelConfigures := by
  intro s r
  refine ⟨fun hr => ?_, fun ha hr => ?_, fun ha => cfgFeistel_of_too_wide ha, fun ha hr => cfgFeistel_of_numRc_lt ha hr⟩
  · exact decode_eq_ok_iff.2 ⟨encode_cfgFeistel hr, (roundsFit_iff r).2 (by omega)⟩
  · obtain ⟨hW, hH, hR, hM⟩ :=
      configFor_fields (min := 0#64) (size := 0#64) ha (hr.trans Config.params.numRc_le)
    refine ⟨_, rfl, rfl, hW, hH, hR, ?_, cfgFeistel_of_legal ha hr⟩
    rw [hH]
    exact hM

/-! ## Widths with the same half width -/

theorem halfWidthOf_odd {k : Nat} (hk : 1 ≤ k) : halfWidthOf (2 * k - 1) = k := by
  rw [halfWidthOf]
  omega

theorem halfWidthOf_even (k : Nat) : halfWidthOf (2 * k) = k := by
  rw [halfWidthOf]
  omega

/-- The configuration depends on the width by the half width and by `CFG_GEOM.W` alone (41_feistel.md R150). -/
theorem configFor_of_halfWidthOf_eq {w w' : Nat} (hw : halfWidthOf w' = halfWidthOf w) (min size : Word) (r : Nat) :
    configFor min size w' r =
      { configFor min size w r with
        geom := { (configFor min size w r).geom with w := BitVec.ofNat 7 w' } } := by
  rw [configFor, configFor, hw]

/-- A Feistel command looks at `CFG_GEOM.H`, `CFG_GEOM.ROUNDS`, the valid bit and the operand, and at no width. -/
theorem feistelCommand_alike {s' : State} (f : Nat → Nat → Word → Word)
    (hv : s.latch.feistelValid = s'.latch.feistelValid) (hh : s.latch.cfg.geom.h = s'.latch.cfg.geom.h)
    (hr : s.latch.cfg.geom.rounds = s'.latch.cfg.geom.rounds) (ha : s.latch.a = s'.latch.a)
    (hresult : s.result = s'.result) :
    ∃ t t', feistelCommand f s = .next t ∧ feistelCommand f s' = .next t' ∧ t.result = t'.result ∧
      t.status.err = t'.status.err := by
  have hop : s.opA = s'.opA := ha
  have hhalf : s.halfWidth = s'.halfWidth := congrArg BitVec.toNat hh
  have hrounds : s.roundCount = s'.roundCount := congrArg BitVec.toNat hr
  have hdomain : s.inFeistelDomain = s'.inFeistelDomain := by
    simp only [State.inFeistelDomain, hop, hhalf]
  refine ⟨_, _, rfl, rfl, ?_⟩
  rw [hv, hdomain, hhalf, hrounds, hop]
  split_ifs <;> simp [hresult]

/-- `s` with the operand of a configuration command in its copies. -/
def withOperandCopy (v : Word) (s : State) : State := { s with latch := { s.latch with a := v } }

theorem cfgFeistel_withOperandCopy {P : Params} {r w : Nat} (hw : w ≤ 64) (hr : r ≤ P.numRc) (s : State) :
    cfgFeistel P r (withOperandCopy (BitVec.ofNat 64 w) s) =
      .next (completeOk 0#64 (setConfig (configFor 0#64 0#64 w r) false true
        (withOperandCopy (BitVec.ofNat 64 w) s))) := by
  have ha : (withOperandCopy (BitVec.ofNat 64 w) s).latch.a.toNat = w := by
    rw [withOperandCopy, BitVec.toNat_ofNat]
    omega
  rw [cfgFeistel_of_legal (ha.trans_le hw) hr, ha]

/-- Settles O31: the two configurations differ in `CFG_GEOM.W`, which `FEISTEL_ENC` does not look at. -/
theorem sameHalfWidthSamePermutation : Obligations.SameHalfWidthSamePermutation := by
  refine ⟨fun k hk => ⟨halfWidthOf_odd hk, halfWidthOf_even k⟩, fun s k r hk hk32 hr => ?_⟩
  have hhalf : halfWidthOf (2 * k) = halfWidthOf (2 * k - 1) := (halfWidthOf_even k).trans (halfWidthOf_odd hk).symm
  have hcfg := configFor_of_halfWidthOf_eq hhalf 0#64 0#64 r
  refine ⟨_, _, cfgFeistel_withOperandCopy (by omega) hr s, cfgFeistel_withOperandCopy (by omega) hr s, hcfg, rfl, ?_,
    fun m => ?_⟩
  · obtain ⟨-, hH, -⟩ := configFor_fields (min := 0#64) (size := 0#64) (w := 2 * k - 1) (by omega)
      (hr.trans Config.params.numRc_le)
    exact hH.trans (halfWidthOf_odd hk)
  · refine feistelCommand_alike (feistelEnc Config.params) rfl ?_ rfl rfl rfl
    exact (congrArg (fun c : CfgRegs => c.geom.h) hcfg).symm

end Sys2Proof.Machine

/-! The cycle walker (spec/42_range.md section 2): a function that a second one undoes on the Feistel domain returns every
start to the range, within the bound of R171, and walking back with the second function undoes the walk. -/

namespace Sys2Proof.Machine

variable {h : Nat} {f g : Word → Word} {size x y : Word} {n : Nat}

/-! ## First returns -/

theorem FirstReturn.one_le (hret : FirstReturn f size x y n) : 1 ≤ n := hret.1

theorem FirstReturn.lt (hret : FirstReturn f size x y n) : y < size := by
  obtain ⟨-, -, hlt, -⟩ := hret
  exact hlt

/-- A start whose first application stays below `size` returns after one application. -/
theorem firstReturn_one (hx : f x < size) : FirstReturn f size x (f x) 1 :=
  ⟨le_rfl, rfl, hx, fun k _ _ => by omega⟩

/-- Some return gives a first return that is no later. -/
theorem exists_firstReturn_of_return (hn : 1 ≤ n) (hret : f^[n] x < size) :
    ∃ y m, FirstReturn f size x y m ∧ m ≤ n := by
  classical
  have hex : ∃ m, 1 ≤ m ∧ f^[m] x < size := ⟨n, hn, hret⟩
  obtain ⟨hm, hlt⟩ := Nat.find_spec hex
  exact ⟨_, Nat.find hex, ⟨hm, rfl, hlt, fun k hk hkm hklt => Nat.find_min hex hkm ⟨hk, hklt⟩⟩,
    Nat.find_min' hex ⟨hn, hret⟩⟩

/-- Settles O26: the walk's answer is the first return within its fuel, and a larger fuel allows the same one. -/
theorem walkAnswersTheFirstReturn : Obligations.WalkAnswersTheFirstReturn := by
  intro f size x y fuel n hwalk
  obtain ⟨hret, hfuel⟩ := (walk_eq_some_iff f size fuel x y n).1 hwalk
  exact ⟨hret, fun more => (walk_eq_some_iff f size (fuel + more) x y n).2 ⟨hret, by omega⟩⟩

/-! ## Functions undone on the Feistel domain -/

/-- `f` keeps the Feistel domain of half width `h`, and `g` undoes it there (41_feistel.md R142, R144). -/
structure UndoneOnDomain (h : Nat) (f g : Word → Word) : Prop where
  mapsTo : Set.MapsTo f (feistelDomain h) (feistelDomain h)
  leftInvOn : Set.LeftInvOn g f (feistelDomain h)

theorem undoneOnDomain_feistelEnc (P : Params) (hh : h ≤ 32) (r : Nat) :
    UndoneOnDomain h (feistelEnc P h r) (feistelDec P h r) :=
  ⟨mapsTo_feistelEnc hh r, (invOn_feistelDec_feistelEnc hh r).1⟩

theorem undoneOnDomain_feistelDec (P : Params) (hh : h ≤ 32) (r : Nat) :
    UndoneOnDomain h (feistelDec P h r) (feistelEnc P h r) :=
  ⟨mapsTo_feistelDec hh r, (invOn_feistelDec_feistelEnc hh r).2⟩

theorem mem_feistelDomain_of_lt (hsize : size.toNat ≤ 2 ^ (2 * h)) (hx : x < size) : x ∈ feistelDomain h :=
  lt_of_lt_of_le hx hsize

namespace UndoneOnDomain

variable (hfg : UndoneOnDomain h f g)
include hfg

/-- `k` applications of `g` undo `k` applications of `f`. -/
theorem iterate_iterate (hx : x ∈ feistelDomain h) (k : Nat) : g^[k] (f^[k] x) = x := by
  induction k generalizing x with
  | zero => rfl
  | succ k ih => rw [Function.iterate_succ_apply', Function.iterate_succ_apply, ih (hfg.mapsTo hx), hfg.leftInvOn hx]

/-- Two numbers of applications that give the same value: the start comes back after their difference. -/
theorem iterate_sub_eq (hx : x ∈ feistelDomain h) {i j : Nat} (hij : i ≤ j) (heq : f^[i] x = f^[j] x) :
    f^[j - i] x = x := by
  have hinj : Set.InjOn f^[i] (feistelDomain h) := hfg.leftInvOn.injOn.iterate hfg.mapsTo i
  apply hinj (hfg.mapsTo.iterate (j - i) hx) hx
  rw [← Function.iterate_add_apply, Nat.add_sub_cancel' hij, heq]

/-- 42_range.md R171 by the pigeonhole principle: `2^(2h) - size + 1` applications without a return would be that many
values in the `2^(2h) - size` places of the domain outside the range, so two of them would agree, and then the start itself
has come back between them. -/
theorem exists_return (hsize : size.toNat ≤ 2 ^ (2 * h)) (hx : x < size) :
    ∃ n, 1 ≤ n ∧ n ≤ 2 ^ (2 * h) - size.toNat + 1 ∧ f^[n] x < size := by
  have hdom : x ∈ feistelDomain h := mem_feistelDomain_of_lt hsize hx
  by_contra! hnone
  have houtside : ∀ k ∈ Finset.Icc 1 (2 ^ (2 * h) - size.toNat + 1),
      (f^[k] x).toNat ∈ Finset.Ico size.toNat (2 ^ (2 * h)) := by
    intro k hk
    obtain ⟨hk1, hkn⟩ := Finset.mem_Icc.1 hk
    exact Finset.mem_Ico.2 ⟨Nat.not_lt.1 (hnone k hk1 hkn), hfg.mapsTo.iterate k hdom⟩
  obtain ⟨i, hi, j, hj, hij, heq⟩ := Finset.exists_ne_map_eq_of_card_lt_of_maps_to (by simp) houtside
  wlog hlt : i < j generalizing i j
  · exact this j hj i hi hij.symm heq.symm (by omega)
  rw [Finset.mem_Icc] at hi hj
  have hback : f^[j - i] x = x := hfg.iterate_sub_eq hdom hlt.le (BitVec.eq_of_toNat_eq heq)
  exact hnone (j - i) (by omega) (by omega) (hback.symm ▸ hx)

/-- Every start in the range has a first return, within the bound of 42_range.md R171. -/
theorem exists_firstReturn (hsize : size.toNat ≤ 2 ^ (2 * h)) (hx : x < size) :
    ∃ y n, FirstReturn f size x y n ∧ n ≤ 2 ^ (2 * h) - size.toNat + 1 := by
  obtain ⟨n, hn, hbound, hret⟩ := hfg.exists_return hsize hx
  obtain ⟨y, m, hfirst, hm⟩ := exists_firstReturn_of_return hn hret
  exact ⟨y, m, hfirst, hm.trans hbound⟩

/-- A first return walked backwards (42_range.md R174): the values between the two ends are the same, so none is in the
range. -/
theorem firstReturn_symm (hsize : size.toNat ≤ 2 ^ (2 * h)) (hx : x < size) (hret : FirstReturn f size x y n) :
    FirstReturn g size y x n := by
  have hdom : x ∈ feistelDomain h := mem_feistelDomain_of_lt hsize hx
  obtain ⟨hn, rfl, -, hbetween⟩ := hret
  have hback : ∀ k ≤ n, g^[k] (f^[n] x) = f^[n - k] x := by
    intro k hk
    calc g^[k] (f^[n] x) = g^[k] (f^[k] (f^[n - k] x)) := by
          rw [← Function.iterate_add_apply, Nat.add_sub_cancel' hk]
      _ = f^[n - k] x := hfg.iterate_iterate (hfg.mapsTo.iterate (n - k) hdom) k
  refine ⟨hn, ?_, hx, fun k hk hkn => ?_⟩
  · rw [hback n le_rfl, Nat.sub_self, Function.iterate_zero_apply]
  · rw [hback k hkn.le]
    exact hbetween (n - k) (by omega) (by omega)

/-- The fuel `2^(2h)` is enough: the walk answers, within the bound of 42_range.md R171. -/
theorem exists_walk (hsize : size.toNat ≤ 2 ^ (2 * h)) (hx : x < size) :
    ∃ y n, walk f size (domainSize h) x = some (y, n) ∧ FirstReturn f size x y n ∧
      n ≤ 2 ^ (2 * h) - size.toNat + 1 := by
  obtain ⟨y, n, hret, hbound⟩ := hfg.exists_firstReturn hsize hx
  have hpos : 0 < size.toNat := Nat.zero_lt_of_lt hx
  have hfuel : n ≤ domainSize h := by
    rw [domainSize]
    omega
  exact ⟨y, n, (walk_eq_some_iff f size _ x y n).2 ⟨hret, hfuel⟩, hret, hbound⟩

/-- The walk answers, and the walk with `g` from its value answers the start in the same number of iterations. -/
theorem exists_walk_walk (hsize : size.toNat ≤ 2 ^ (2 * h)) (hx : x < size) :
    ∃ y n, walk f size (domainSize h) x = some (y, n) ∧ walk g size (domainSize h) y = some (x, n) := by
  obtain ⟨y, n, hwalk, hret, -⟩ := hfg.exists_walk hsize hx
  obtain ⟨-, hfuel⟩ := (walk_eq_some_iff f size _ x y n).1 hwalk
  exact ⟨y, n, hwalk, (walk_eq_some_iff g size _ y x n).2 ⟨hfg.firstReturn_symm hsize hx hret, hfuel⟩⟩

end UndoneOnDomain

/-- Settles O24: each function is undone on the domain by the other, and so returns within the bound. -/
theorem walksTerminateWithinTheBound : Obligations.WalksTerminateWithinTheBound := by
  intro P h r size x0 hh hsize hx
  exact ⟨(undoneOnDomain_feistelEnc P hh r).exists_walk hsize hx,
    (undoneOnDomain_feistelDec P hh r).exists_walk hsize hx⟩

/-- Settles O25: a first return walked backwards is a first return of the inverse function. -/
theorem walksInvertEachOther : Obligations.WalksInvertEachOther := by
  intro P h r size x0 hh hsize hx
  exact ⟨(undoneOnDomain_feistelEnc P hh r).exists_walk_walk hsize hx,
    (undoneOnDomain_feistelDec P hh r).exists_walk_walk hsize hx⟩

end Sys2Proof.Machine

/-! The geometry of a range and the command that configures it (spec/42_range.md section 1): the derived width, and the
branches of `CFG_RANGE`. -/

namespace Sys2Proof.Machine

variable {P : Params} {s : State} {size : Word}

/-! ## The derived width -/

section
variable (hs : 1 ≤ size.toNat)
include hs

/-- The widths from the derived one upwards are those whose power of two covers the range (42_range.md R166). -/
theorem rangeWidth_le_iff (n : Nat) : rangeWidth size ≤ n ↔ size.toNat ≤ 2 ^ n := by
  have hpred : (size - 1#64).toNat = size.toNat - 1 := BitVec.toNat_sub_of_le hs
  rw [rangeWidth, bitlen_le_iff, hpred]
  omega

theorem le_two_pow_rangeWidth : size.toNat ≤ 2 ^ rangeWidth size := (rangeWidth_le_iff hs _).1 le_rfl

/-- One bit less does not cover the range. -/
theorem two_pow_rangeWidth_pred_lt (hw : 1 ≤ rangeWidth size) : 2 ^ (rangeWidth size - 1) < size.toNat := by
  by_contra hc
  have hle : rangeWidth size ≤ rangeWidth size - 1 := (rangeWidth_le_iff hs _).2 (Nat.not_lt.1 hc)
  omega

end

theorem rangeWidth_le (size : Word) : rangeWidth size ≤ 64 := bitlen_le _

theorem one_le_rangeWidth (hs : 2 ≤ size.toNat) : 1 ≤ rangeWidth size := by
  by_contra hc
  have hle : size.toNat ≤ 2 ^ 0 := (rangeWidth_le_iff (by omega) 0).1 (by omega)
  omega

theorem rangeWidth_one : rangeWidth 1#64 = 0 := Nat.le_zero.1 ((rangeWidth_le_iff le_rfl 0).2 le_rfl)

/-- Settles O27: the widths that cover the range are those from the derived one upwards. -/
theorem rangeWidthIsTheSmallest : Obligations.RangeWidthIsTheSmallest :=
  ⟨fun size hs => ⟨le_two_pow_rangeWidth hs, fun n hn => (rangeWidth_le_iff hs n).2 hn, rangeWidth_le size⟩,
    rangeWidth_one⟩

/-- Two halves make the width, or one bit more (41_feistel.md R136). -/
theorem le_two_mul_halfWidthOf (w : Nat) : w ≤ 2 * halfWidthOf w := by
  rw [halfWidthOf]
  omega

theorem two_mul_halfWidthOf_le (w : Nat) : 2 * halfWidthOf w ≤ w + 1 := by
  rw [halfWidthOf]
  omega

theorem two_mul_halfWidthOf_of_even {w : Nat} (hw : w % 2 = 0) : 2 * halfWidthOf w = w := by
  rw [halfWidthOf]
  omega

/-- The range is inside the Feistel domain of the derived half width (42_range.md R167). -/
theorem size_le_domain (hs : 1 ≤ size.toNat) : size.toNat ≤ 2 ^ (2 * halfWidthOf (rangeWidth size)) :=
  (le_two_pow_rangeWidth hs).trans (Nat.pow_le_pow_right (by decide) (le_two_mul_halfWidthOf _))

/-- Settles O28: the domain has at most two bits more than a width that is too small, and one for an even width. -/
theorem derivedWidthCoversTheRange : Obligations.DerivedWidthCoversTheRange := by
  intro size hs w h
  have hdomain : 2 ^ w ≤ 2 ^ (2 * h) := Nat.pow_le_pow_right (by decide) (le_two_mul_halfWidthOf w)
  have hdouble (hs2 : 2 ≤ size.toNat) : 2 ^ w < 2 * size.toNat := by
    have hw : 1 ≤ w := one_le_rangeWidth hs2
    calc 2 ^ w = 2 * 2 ^ (w - 1) := (mul_pow_sub_one (by omega) 2).symm
      _ < 2 * size.toNat := Nat.mul_lt_mul_of_pos_left (two_pow_rangeWidth_pred_lt hs hw) (by decide)
  refine ⟨le_two_pow_rangeWidth hs, hdomain, two_pow_rangeWidth_pred_lt hs, fun hs2 => ?_, fun hs2 heven => ?_⟩
  · calc 2 ^ (2 * h) ≤ 2 ^ (w + 1) := Nat.pow_le_pow_right (by decide) (two_mul_halfWidthOf_le w)
      _ = 2 * 2 ^ w := Nat.pow_succ'
      _ < 4 * size.toNat := by have := hdouble hs2; omega
  · calc 2 ^ (2 * h) = 2 ^ w := congrArg (2 ^ ·) (two_mul_halfWidthOf_of_even heven)
      _ < 2 * size.toNat := hdouble hs2

/-! ## `CFG_RANGE` -/

theorem cfgRange_of_empty {r : Nat} (hba : s.latch.b ≤ s.latch.a) :
    cfgRange P r s = .next (raiseError .rangeEmpty s) := by
  rcases cfgRange_cases P r s with ⟨-, ho⟩ | ⟨hab, -⟩ | ⟨hab, -⟩
  · exact ho
  · exact absurd hba (BitVec.not_le.2 hab)
  · exact absurd hba (BitVec.not_le.2 hab)

theorem cfgRange_of_legal {r : Nat} (hab : s.latch.a < s.latch.b) (hr : r ≤ P.numRc) :
    cfgRange P r s = .next (completeOk 0#64 (setConfig (configFor s.latch.a (s.latch.b - s.latch.a)
      (rangeWidth (s.latch.b - s.latch.a)) r) true true s)) := by
  rcases cfgRange_cases P r s with ⟨hba, -⟩ | ⟨-, hlt, -⟩ | ⟨-, -, ho⟩
  · exact absurd hba (BitVec.not_le.2 hab)
  · omega
  · exact ho

/-- Settles O29: the three branches of the command, and the fields of the configuration it writes. -/
theorem cfgRangeConfigures : Obligations.CfgRangeConfigures := by
  intro s r
  refine ⟨fun hr => ?_, fun hab hr => ?_, fun hba => cfgRange_of_empty hba, fun hab hr => cfgRange_of_numRc_lt hab hr⟩
  · exact decode_eq_ok_iff.2 ⟨encode_cfgRange hr, (roundsFit_iff r).2 (by omega)⟩
  · obtain ⟨hW, hH, hR, hM⟩ := configFor_fields (min := s.latch.a) (size := s.latch.b - s.latch.a)
      (rangeWidth_le (s.latch.b - s.latch.a)) (hr.trans Config.params.numRc_le)
    refine ⟨_, rfl, BitVec.toNat_sub_of_le (BitVec.le_of_lt hab), hW, ?_, hR, ?_, cfgRange_of_legal hab hr⟩
    · rw [hH, hW]
    · rw [hM, hH]

/-- Settles O41: `CFG_RANGE` configures the width of `2^64 - 1` elements, and R171's bound for that size is 2. -/
theorem largestRange : Obligations.LargestRange := by
  refine ⟨fun s r ha hb hr => ?_, fun P r size x0 hsize hx => ?_⟩
  · have hab : s.latch.a < s.latch.b := by
      rw [ha, BitVec.lt_def, hb]
      decide
    obtain ⟨-, hconfigures, -⟩ := cfgRangeConfigures s r
    obtain ⟨c, -, hsize, hW, hH, -, -, ho⟩ := hconfigures hab hr
    rw [ha, hb] at hsize
    have hc : c.size = 0xFFFFFFFFFFFFFFFF#64 := BitVec.eq_of_toNat_eq hsize
    have hW64 : c.geom.w.toNat = 64 := by
      rw [hW, hc]
      decide
    refine ⟨_, ho, hsize, hW64, ?_⟩
    rw [hH, hW64]
  · obtain ⟨⟨y, n, henc, -, hn⟩, z, m, hdec, -, hm⟩ :=
      walksTerminateWithinTheBound P 32 r size x0 le_rfl (by omega) hx
    exact ⟨y, z, n, m, henc, hdec, by omega, by omega⟩

end Sys2Proof.Machine

/-! The commands `RANGE_ENC` and `RANGE_DEC` (spec/42_range.md sections 3 and 4): what a valid range configuration gives,
first returns between operands of the range, and the branches of the two commands. -/

namespace Sys2Proof.Machine

variable {P : Params} {s t : State} {c : CfgRegs} {f g : Word → Word} {i v v' x : Word} {n n' : Nat}

/-! ## The operands of a range -/

/-- The operands of the configured range, `[min, min + size)` (42_range.md R165). -/
def CfgRegs.range (c : CfgRegs) : Set Word :=
  {i | c.min.toNat ≤ i.toNat ∧ i.toNat < c.min.toNat + c.size.toNat}

/-- The operand check of the commands is membership in the range. -/
theorem inRange_iff_mem_range (s : State) : s.inRange = true ↔ s.latch.a ∈ s.latch.cfg.range := by
  rw [inRange_iff]
  exact and_congr_right fun hmin => Nat.sub_lt_iff_lt_add' hmin

theorem CfgRegs.sub_min_lt (hi : i ∈ c.range) : i - c.min < c.size := by
  obtain ⟨hmin, hmax⟩ := hi
  rw [BitVec.lt_def, BitVec.toNat_sub_of_le hmin]
  omega

/-- An operand of the range is its distance to `min`, plus `min`, without wrapping. -/
theorem CfgRegs.toNat_of_mem_range (hi : i ∈ c.range) : i.toNat = (i - c.min).toNat + c.min.toNat := by
  obtain ⟨hmin, -⟩ := hi
  rw [BitVec.toNat_sub_of_le hmin, Nat.sub_add_cancel hmin]

/-- What the two commands need of the configuration: the range is in the Feistel domain, adding `min` does not wrap, and
R171's bound fits `ITER_COUNT`. -/
structure CfgRegs.CoversRange (c : CfgRegs) : Prop where
  halfWidth_le : c.geom.h.toNat ≤ 32
  size_le : c.size.toNat ≤ 2 ^ (2 * c.geom.h.toNat)
  no_wrap : c.min.toNat + c.size.toNat ≤ 2 ^ 64 - 1
  bound_lt : 2 ^ (2 * c.geom.h.toNat) - c.size.toNat + 1 < 2 ^ 64

/-- For the bound: a range of one element has half width 0, and a larger range leaves the bound below the size of the
largest domain. -/
theorem CfgRegs.Consistent.coversRange {rv fv : Bool} (hc : c.Consistent P rv fv) (hv : rv = true) : c.CoversRange := by
  obtain ⟨⟨hH, -⟩, -, hrange⟩ := hc
  obtain ⟨-, hsize, hwrap, hW⟩ := hrange hv
  have hW' : c.geom.w.toNat = rangeWidth c.size := hW
  have hh : c.geom.h.toNat = halfWidthOf (rangeWidth c.size) := by rw [hH, hW', halfWidthOf]
  have hle : c.geom.h.toNat ≤ 32 := hh ▸ halfWidthOf_le (rangeWidth_le c.size)
  refine ⟨hle, hh ▸ size_le_domain hsize, hwrap, ?_⟩
  rcases hsize.eq_or_lt with hone | htwo
  · have hc1 : c.size = 1#64 := BitVec.eq_of_toNat_eq hone.symm
    rw [hh, hc1, rangeWidth_one]
    decide
  · have hdomain : 2 ^ (2 * c.geom.h.toNat) ≤ 2 ^ 64 := Nat.pow_le_pow_right (by decide) (by omega)
    omega

theorem CfgRegs.CoversRange.toNat_add_min (hc : c.CoversRange) (hx : x < c.size) :
    (x + c.min).toNat = x.toNat + c.min.toNat := by
  have hlt : x.toNat < c.size.toNat := hx
  have hwrap := hc.no_wrap
  exact BitVec.toNat_add_of_lt (by omega)

theorem CfgRegs.CoversRange.add_min_mem (hc : c.CoversRange) (hx : x < c.size) : x + c.min ∈ c.range := by
  have hlt : x.toNat < c.size.toNat := hx
  have hadd := hc.toNat_add_min hx
  change c.min.toNat ≤ (x + c.min).toNat ∧ (x + c.min).toNat < c.min.toNat + c.size.toNat
  omega

/-! ## The two functions of a configuration -/

/-- The function a configuration selects from a family by its half width and round count. -/
def CfgRegs.cipher (c : CfgRegs) (F : Nat → Nat → Word → Word) : Word → Word := F c.geom.h.toNat c.geom.rounds.toNat

theorem CfgRegs.CoversRange.undone_enc (hc : c.CoversRange) (P : Params) :
    UndoneOnDomain c.geom.h.toNat (c.cipher (feistelEnc P)) (c.cipher (feistelDec P)) :=
  undoneOnDomain_feistelEnc P hc.halfWidth_le _

theorem CfgRegs.CoversRange.undone_dec (hc : c.CoversRange) (P : Params) :
    UndoneOnDomain c.geom.h.toNat (c.cipher (feistelDec P)) (c.cipher (feistelEnc P)) :=
  undoneOnDomain_feistelDec P hc.halfWidth_le _

/-! ## First returns between operands -/

/-- The first return of `f` sends the operand `i` to `v` in `n` applications, both shifted by `min` (42_range.md R173). -/
def CfgRegs.Sends (c : CfgRegs) (f : Word → Word) (i v : Word) (n : Nat) : Prop :=
  FirstReturn f c.size (i - c.min) (v - c.min) n

namespace CfgRegs

theorem Sends.unique (h : c.Sends f i v n) (h' : c.Sends f i v' n') : v = v' ∧ n = n' := by
  obtain ⟨hv, hn⟩ := FirstReturn.unique h h'
  exact ⟨(BitVec.sub_left_inj _).1 hv, hn⟩

/-- An operand that one application keeps in the range. -/
theorem sends_one (hlt : f (i - c.min) < c.size) : c.Sends f i (f (i - c.min) + c.min) 1 := by
  rw [Sends, BitVec.add_sub_cancel]
  exact firstReturn_one hlt

section
variable (hc : c.CoversRange) (hfg : UndoneOnDomain c.geom.h.toNat f g) (hi : i ∈ c.range)
include hc hfg hi

theorem exists_sends :
    ∃ v ∈ c.range, ∃ n, c.Sends f i v n ∧ n ≤ 2 ^ (2 * c.geom.h.toNat) - c.size.toNat + 1 := by
  obtain ⟨x, n, hret, hn⟩ := hfg.exists_firstReturn hc.size_le (sub_min_lt hi)
  refine ⟨x + c.min, hc.add_min_mem hret.lt, n, ?_, hn⟩
  rwa [Sends, BitVec.add_sub_cancel]

theorem Sends.symm (h : c.Sends f i v n) : c.Sends g v i n := hfg.firstReturn_symm hc.size_le (sub_min_lt hi) h

end

end CfgRegs

/-! ## The branches of the two commands -/

/-- The walk of 42_range.md R169 and R170 with a family of functions: `walkEnc` and `walkDec` are this with `feistelEnc`
and `feistelDec`. -/
def walkWith (F : Nat → Nat → Word → Word) (h r : Nat) (size x0 : Word) : Option (Word × Nat) :=
  walk (F h r) size (domainSize h) x0

theorem exec_rangeEnc (s : State) : exec .rangeEnc s = rangeCommand (walkWith (feistelEnc Config.params)) s := rfl

theorem exec_rangeDec (s : State) : exec .rangeDec s = rangeCommand (walkWith (feistelDec Config.params)) s := rfl

section
variable {w : Nat → Nat → Word → Word → Option (Word × Nat)}

theorem rangeCommand_of_not_configured (hv : s.latch.rangeValid = false) :
    rangeCommand w s = .next (raiseError .notConfigured s) := by
  rcases rangeCommand_cases w s with ⟨-, ho⟩ | ⟨hv', -⟩ | ⟨hv', -⟩
  · exact ho
  · exact nomatch hv.symm.trans hv'
  · exact nomatch hv.symm.trans hv'

theorem rangeCommand_of_outside (hv : s.latch.rangeValid = true)
    (ha : s.latch.a.toNat < s.latch.cfg.min.toNat ∨
      s.latch.cfg.size.toNat ≤ s.latch.a.toNat - s.latch.cfg.min.toNat) :
    rangeCommand w s = .next (raiseError .outOfDomain s) := by
  rcases rangeCommand_cases w s with ⟨hv', -⟩ | ⟨-, -, ho⟩ | ⟨-, hin, -⟩
  · exact nomatch hv.symm.trans hv'
  · exact ho
  · obtain ⟨hmin, hmax⟩ := (inRange_iff s).1 hin
    omega

/-- Only an operand of a configured range is answered without an error. -/
theorem mem_range_of_rangeCommand_ok (ht : rangeCommand w s = .next t) (hok : t.status.err = .ok) :
    s.latch.rangeValid = true ∧ s.latch.a ∈ s.latch.cfg.range := by
  rcases rangeCommand_cases w s with ⟨-, ho⟩ | ⟨-, -, ho⟩ | ⟨hv, hin, -⟩
  · cases ho.symm.trans ht
    exact absurd hok (raiseError_err_ne_ok (by decide) s)
  · cases ho.symm.trans ht
    exact absurd hok (raiseError_err_ne_ok (by decide) s)
  · exact ⟨hv, (inRange_iff_mem_range s).1 hin⟩

end

section
variable {F G : Nat → Nat → Word → Word}

/-- The command on an operand of the range whose first return the fuel allows. -/
theorem rangeCommand_of_sends (hv : s.latch.rangeValid = true) (ha : s.latch.a ∈ s.latch.cfg.range)
    (hsends : s.latch.cfg.Sends (s.latch.cfg.cipher F) s.latch.a v n) (hn : n ≤ 2 ^ (2 * s.latch.cfg.geom.h.toNat)) :
    rangeCommand (walkWith F) s = .next (completeOk (BitVec.ofNat 64 n) (setResult v s)) := by
  rcases rangeCommand_cases (walkWith F) s with ⟨hv', -⟩ | ⟨-, hout, -⟩ | ⟨-, -, ho⟩
  · exact nomatch hv.symm.trans hv'
  · exact nomatch ((inRange_iff_mem_range s).2 ha).symm.trans hout
  · have hwalk : walkWith F s.halfWidth s.roundCount s.latch.cfg.size (s.latch.a - s.latch.cfg.min) =
        some (v - s.latch.cfg.min, n) := (walk_eq_some_iff _ _ _ _ _ _).2 ⟨hsends, hn⟩
    rw [ho, hwalk, finishWalk, BitVec.sub_add_cancel]

variable (hc : s.latch.cfg.CoversRange) (hv : s.latch.rangeValid = true) (ha : s.latch.a ∈ s.latch.cfg.range)
  (hFG : UndoneOnDomain s.latch.cfg.geom.h.toNat (s.latch.cfg.cipher F) (s.latch.cfg.cipher G))
include hc hv ha hFG

/-- With a range configuration a command can build, the command answers every operand of the range by its first return. -/
theorem exists_rangeCommand_of_mem :
    ∃ v ∈ s.latch.cfg.range, ∃ count : Word,
      s.latch.cfg.Sends (s.latch.cfg.cipher F) s.latch.a v count.toNat ∧
      rangeCommand (walkWith F) s = .next (completeOk count (setResult v s)) := by
  obtain ⟨v, hmem, n, hsends, hn⟩ := CfgRegs.exists_sends hc hFG ha
  have hpos : 0 < s.latch.cfg.size.toNat := Nat.zero_lt_of_lt (CfgRegs.sub_min_lt ha)
  have hsize := hc.size_le
  have hcount : (BitVec.ofNat 64 n).toNat = n := by
    rw [BitVec.toNat_ofNat, Nat.mod_eq_of_lt (hn.trans_lt hc.bound_lt)]
  exact ⟨v, hmem, BitVec.ofNat 64 n, hcount.symm ▸ hsends, rangeCommand_of_sends hv ha hsends (by omega)⟩

/-- When the range fills the Feistel domain, the first application is already in the range (42_range.md R178). -/
theorem rangeCommand_of_full (hfull : s.latch.cfg.size.toNat = 2 ^ (2 * s.latch.cfg.geom.h.toNat)) :
    s.latch.cfg.cipher F (s.latch.a - s.latch.cfg.min) < s.latch.cfg.size ∧
    rangeCommand (walkWith F) s = .next (completeOk 1#64
      (setResult (s.latch.cfg.cipher F (s.latch.a - s.latch.cfg.min) + s.latch.cfg.min) s)) := by
  have hdom := mem_feistelDomain_of_lt hc.size_le (CfgRegs.sub_min_lt ha)
  have hlt : s.latch.cfg.cipher F (s.latch.a - s.latch.cfg.min) < s.latch.cfg.size := by
    rw [BitVec.lt_def, hfull]
    exact hFG.mapsTo hdom
  exact ⟨hlt, rangeCommand_of_sends hv ha (CfgRegs.sends_one hlt) Nat.one_le_two_pow⟩

end

/-! ## `RANGE_ENC` and `RANGE_DEC` -/

section
variable (hc : s.latch.cfg.CoversRange) (hv : s.latch.rangeValid = true) (ha : s.latch.a ∈ s.latch.cfg.range)
include hc hv ha

theorem exists_rangeEnc_of_mem :
    ∃ v ∈ s.latch.cfg.range, ∃ count : Word,
      s.latch.cfg.Sends (s.latch.cfg.cipher (feistelEnc Config.params)) s.latch.a v count.toNat ∧
      exec .rangeEnc s = .next (completeOk count (setResult v s)) := by
  rw [exec_rangeEnc]
  exact exists_rangeCommand_of_mem hc hv ha (hc.undone_enc Config.params)

theorem exists_rangeDec_of_mem :
    ∃ v ∈ s.latch.cfg.range, ∃ count : Word,
      s.latch.cfg.Sends (s.latch.cfg.cipher (feistelDec Config.params)) s.latch.a v count.toNat ∧
      exec .rangeDec s = .next (completeOk count (setResult v s)) := by
  rw [exec_rangeDec]
  exact exists_rangeCommand_of_mem hc hv ha (hc.undone_dec Config.params)

/-- `RANGE_DEC` on the operand that `RANGE_ENC` sends `i` to gives `i` back, with the same count (42_range.md R174). -/
theorem rangeDec_of_sends {count : Word} (hi : i ∈ s.latch.cfg.range)
    (hsends : s.latch.cfg.Sends (s.latch.cfg.cipher (feistelEnc Config.params)) i s.latch.a count.toNat) :
    exec .rangeDec s = .next (completeOk count (setResult i s)) := by
  obtain ⟨v, -, count', hdec, ho⟩ := exists_rangeDec_of_mem hc hv ha
  obtain ⟨rfl, hcount⟩ := (hsends.symm hc (hc.undone_enc Config.params) hi).unique hdec
  rw [ho, BitVec.eq_of_toNat_eq hcount]

end

/-- Settles O35: the first return stays in the range, so `min` is added without wrapping, and the two error branches. -/
theorem rangeEncCompletes : Obligations.RangeEncCompletes := by
  intro s
  refine ⟨decode_eq_ok_iff.2 ⟨rfl, rfl⟩, fun hinv hv hmin hmax => ?_, fun hv => rangeCommand_of_not_configured hv,
    fun hv ha => rangeCommand_of_outside hv ha⟩
  obtain ⟨v, hmem, count, hsends, ho⟩ := exists_rangeEnc_of_mem (hinv.coversRange hv) hv ⟨hmin, hmax⟩
  exact ⟨_, v, count, _, hsends, CfgRegs.toNat_of_mem_range hmem, rfl, ho⟩

/-- A `RANGE_ENC` without an error answers `a` exactly on the operand that the inverse function sends `a` to. -/
theorem rangeEnc_result_eq_iff {a : Word} (hc : s.latch.cfg.CoversRange) (ha : a ∈ s.latch.cfg.range)
    (hdec : s.latch.cfg.Sends (s.latch.cfg.cipher (feistelDec Config.params)) a v n)
    (ht : exec .rangeEnc s = .next t) (hok : t.status.err = .ok) : t.result = a ↔ s.latch.a = v := by
  obtain ⟨hv, hi⟩ := mem_range_of_rangeCommand_ok ht hok
  obtain ⟨u, -, count, henc, ho⟩ := exists_rangeEnc_of_mem hc hv hi
  cases ho.symm.trans ht
  change u = a ↔ s.latch.a = v
  constructor
  · rintro rfl
    exact ((henc.symm hc (hc.undone_enc Config.params) hi).unique hdec).1
  · rintro rfl
    exact (henc.unique (hdec.symm hc (hc.undone_dec Config.params) ha)).1

/-- Settles O36: as O35 with the inverse function, whose first returns are those of the forward function backwards. -/
theorem rangeDecCompletes : Obligations.RangeDecCompletes := by
  intro s
  refine ⟨decode_eq_ok_iff.2 ⟨rfl, rfl⟩, fun hinv hv hmin hmax => ?_, fun hv => rangeCommand_of_not_configured hv,
    fun hv ha => rangeCommand_of_outside hv ha⟩
  have hc : s.latch.cfg.CoversRange := hinv.coversRange hv
  have ha : s.latch.a ∈ s.latch.cfg.range := ⟨hmin, hmax⟩
  obtain ⟨v, hmem, count, hsends, ho⟩ := exists_rangeDec_of_mem hc hv ha
  exact ⟨_, v, count, _, hsends, CfgRegs.toNat_of_mem_range hmem, rfl, ho,
    fun i t ht hok => rangeEnc_result_eq_iff (s := withOperandCopy i s) hc ha hsends ht hok⟩

/-- A choice of first returns is a bijection of the range: each is undone by a first return of the inverse function. -/
theorem bijOn_of_sends {image : Word → Word} {count : Word → Nat} (hc : c.CoversRange)
    (hfg : UndoneOnDomain c.geom.h.toNat f g) (hgf : UndoneOnDomain c.geom.h.toNat g f)
    (hmem : Set.MapsTo image c.range c.range) (hsends : ∀ i ∈ c.range, c.Sends f i (image i) (count i)) :
    Set.BijOn image c.range c.range := by
  refine ⟨hmem, fun i hi i' hi' heq => ?_, fun v hv => ?_⟩
  · have hback := (hsends i hi).symm hc hfg hi
    rw [heq] at hback
    exact (hback.unique ((hsends i' hi').symm hc hfg hi')).1
  · obtain ⟨i, hi, n, hback, -⟩ := CfgRegs.exists_sends hc hgf hv
    exact ⟨i, hi, ((hsends i hi).unique (hback.symm hc hgf hv)).1⟩

/-- Settles O37: the bijection is a choice of the first returns, which `RANGE_ENC` answers. -/
theorem rangeEncPermutesTheRange : Obligations.RangeEncPermutesTheRange := by
  intro s hinv hv
  have hc : s.latch.cfg.CoversRange := hinv.coversRange hv
  have hanswer := fun i (hi : i ∈ s.latch.cfg.range) => exists_rangeEnc_of_mem (s := withOperandCopy i s) hc hv hi
  choose! image hmem count hsends ho using hanswer
  exact ⟨image, bijOn_of_sends hc (hc.undone_enc Config.params) (hc.undone_dec Config.params) hmem hsends,
    fun i hi => ⟨_, _, ho i hi, rfl, rfl, hsends i hi⟩⟩

/-- Settles O38: the configuration stands between the two commands, and the first return is walked backwards. -/
theorem rangeCommandsInvertEachOther : Obligations.RangeCommandsInvertEachOther := by
  intro s i hinv hv hmin hmax
  have hc : s.cfg.CoversRange := CfgRegs.Consistent.coversRange hinv hv
  have hi : i ∈ s.cfg.range := ⟨hmin, hmax⟩
  obtain ⟨v, hmem, count, hsends, ho⟩ :=
    exists_rangeEnc_of_mem (s := accept (encode .rangeEnc) { s with opa := i }) hc hv hi
  exact ⟨_, _, ho, rangeDec_of_sends hc hv hmem hi hsends, rfl, rfl, hsends.one_le, rfl, rfl⟩

/-! ## Boundary cases -/

/-- Settles O40: the first application is in the range, so `min` is added without wrapping. -/
theorem fullDomainRangeTakesOneIteration : Obligations.FullDomainRangeTakesOneIteration := by
  intro s hinv hv hfull hmin hmax
  have hc : s.latch.cfg.CoversRange := hinv.coversRange hv
  obtain ⟨hencLt, henc⟩ := rangeCommand_of_full hc hv ⟨hmin, hmax⟩ (hc.undone_enc Config.params) hfull
  obtain ⟨hdecLt, hdec⟩ := rangeCommand_of_full hc hv ⟨hmin, hmax⟩ (hc.undone_dec Config.params) hfull
  exact ⟨_, _, (exec_rangeEnc s).trans henc, (exec_rangeDec s).trans hdec, rfl, rfl,
    hc.toNat_add_min hencLt, hc.toNat_add_min hdecLt⟩

/-- A range of one element has width 0 (42_range.md R177). -/
theorem CfgRegs.Consistent.geom_of_size_one {rv fv : Bool} (hc : c.Consistent P rv fv) (hv : rv = true)
    (hsize : c.size = 1#64) : c.geom.w = 0#7 ∧ c.geom.h = 0#6 := by
  obtain ⟨⟨hH, -⟩, -, hrange⟩ := hc
  obtain ⟨-, -, -, hW⟩ := hrange hv
  have hW0 : c.geom.w.toNat = 0 := by
    rw [hW, hsize]
    exact rangeWidth_one
  rw [hW0] at hH
  exact ⟨BitVec.eq_of_toNat_eq hW0, BitVec.eq_of_toNat_eq hH⟩

/-- In the domain `{0}` the one application gives 0 again, and the command answers `min`. -/
theorem rangeCommand_of_size_one {F G : Nat → Nat → Word → Word} (hc : s.latch.cfg.CoversRange)
    (hv : s.latch.rangeValid = true)
    (hFG : UndoneOnDomain s.latch.cfg.geom.h.toNat (s.latch.cfg.cipher F) (s.latch.cfg.cipher G))
    (hsize : s.latch.cfg.size = 1#64) (hh : s.latch.cfg.geom.h = 0#6) (ha : s.latch.a = s.latch.cfg.min) :
    rangeCommand (walkWith F) s = .next (completeOk 1#64 (setResult s.latch.cfg.min s)) := by
  have hmem : s.latch.a ∈ s.latch.cfg.range := by
    rw [ha]
    exact ⟨le_rfl, by rw [hsize]; exact Nat.lt_succ_self _⟩
  obtain ⟨hlt, ho⟩ := rangeCommand_of_full hc hv hmem hFG (by rw [hsize, hh]; rfl)
  have hzero : s.latch.cfg.cipher F (s.latch.a - s.latch.cfg.min) = 0#64 := by
    rw [hsize] at hlt
    exact BitVec.eq_of_toNat_eq (Nat.lt_one_iff.1 hlt)
  rw [ho, hzero, BitVec.zero_add]

/-- Settles O39: the width 0 of one element, and the domain `{0}` for both commands. -/
theorem singleElementRange : Obligations.SingleElementRange := by
  intro s hinv hv hsize ha
  have hc : s.latch.cfg.CoversRange := hinv.coversRange hv
  obtain ⟨hw, hh⟩ := hinv.geom_of_size_one hv hsize
  refine ⟨hw, hh, ?_, ?_⟩
  · rw [hh]
    exact Set.ext mem_feistelDomain_zero_iff
  · rintro i (rfl | rfl)
    · exact (exec_rangeEnc s).trans (rangeCommand_of_size_one hc hv (hc.undone_enc Config.params) hsize hh ha)
    · exact (exec_rangeDec s).trans (rangeCommand_of_size_one hc hv (hc.undone_dec Config.params) hsize hh ha)

end Sys2Proof.Machine

/-! Errors (spec/60_exceptions.md sections 1 and 2): every completion with an error code is one `raiseError`, what that
leaves unchanged, and which code each command reports. -/

namespace Sys2Proof.Machine

variable {s t : State}

/-! ## Every error is raised in one way -/

theorem cfgRange_error {P : Params} {r : Nat} (ht : cfgRange P r s = .next t) (herr : t.status.err ≠ .ok) :
    ∃ c, t = raiseError c s := by
  rcases cfgRange_cases P r s with ⟨-, ho⟩ | ⟨-, -, ho⟩ | ⟨-, -, ho⟩ <;> cases ho.symm.trans ht
  · exact ⟨_, rfl⟩
  · exact ⟨_, rfl⟩
  · exact absurd rfl herr

theorem cfgFeistel_error {P : Params} {r : Nat} (ht : cfgFeistel P r s = .next t) (herr : t.status.err ≠ .ok) :
    ∃ c, t = raiseError c s := by
  rcases cfgFeistel_cases P r s with ⟨-, ho⟩ | ⟨-, -, ho⟩ | ⟨-, -, ho⟩ <;> cases ho.symm.trans ht
  · exact ⟨_, rfl⟩
  · exact ⟨_, rfl⟩
  · exact absurd rfl herr

theorem feistelCommand_error {f : Nat → Nat → Word → Word} (ht : feistelCommand f s = .next t)
    (herr : t.status.err ≠ .ok) : ∃ c, t = raiseError c s := by
  rcases feistelCommand_cases f s with ⟨-, ho⟩ | ⟨-, -, ho⟩ | ⟨-, -, ho⟩ <;> cases ho.symm.trans ht
  · exact ⟨_, rfl⟩
  · exact ⟨_, rfl⟩
  · exact absurd rfl herr

theorem rangeCommand_error {w : Nat → Nat → Word → Word → Option (Word × Nat)} (ht : rangeCommand w s = .next t)
    (herr : t.status.err ≠ .ok) : ∃ c, t = raiseError c s := by
  rcases rangeCommand_cases w s with ⟨-, ho⟩ | ⟨-, -, ho⟩ | ⟨-, -, ho⟩
  · cases ho.symm.trans ht
    exact ⟨_, rfl⟩
  · cases ho.symm.trans ht
    exact ⟨_, rfl⟩
  · obtain ⟨x, n, -, rfl⟩ := finishWalk_next (ho.symm.trans ht)
    exact absurd rfl herr

/-- Everything a command that fails can do: it raises its code and has written nothing before that (60_exceptions.md
R202). -/
theorem exec_error {i : Instr} (ht : exec i s = .next t) (herr : t.status.err ≠ .ok) : ∃ c, t = raiseError c s := by
  cases i with
  | cfgRange r => exact cfgRange_error ht herr
  | cfgFeistel r => exact cfgFeistel_error ht herr
  | rangeEnc | rangeDec => exact rangeCommand_error ht herr
  | feistelEnc | feistelDec => exact feistelCommand_error ht herr

theorem completeCommand_error {w : Word} (ht : completeCommand w s = .next t) (herr : t.status.err ≠ .ok) :
    ∃ c, t = raiseError c s := by
  rcases completeCommand_cases w s with ⟨i, -, ho⟩ | ⟨e, -, ho⟩
  · exact exec_error (ho.symm.trans ht) herr
  · cases ho.symm.trans ht
    exact ⟨_, rfl⟩

/-! ## What an error leaves -/

theorem Code.isConfigError_iff (c : Code) : c.isConfigError = true ↔ 2 ≤ c.bits.toNat ∧ c.bits.toNat ≤ 4 := by
  cases c <;> decide

/-- The whole of an error completion (60_exceptions.md R202). -/
theorem raiseError_eq (c : Code) (s : State) :
    raiseError c s = { s with
      iterCount := 0#64
      status := { s.status with
        busy := false
        done := true
        err := c
        rangeValid := if 2 ≤ c.bits.toNat ∧ c.bits.toNat ≤ 4 then false else s.status.rangeValid
        feistelValid := if 2 ≤ c.bits.toNat ∧ c.bits.toNat ≤ 4 then false else s.status.feistelValid } } := by
  simp only [← Code.isConfigError_iff]
  cases c <;> rfl

/-- Settles O42: the completion is a `raiseError`. -/
theorem errorCompletionEffect : Obligations.ErrorCompletionEffect := by
  intro w s t ht herr
  obtain ⟨c, rfl⟩ := completeCommand_error ht herr
  rw [(raiseError_outputs c s).1]
  exact raiseError_eq c s

/-- A configuration error clears both valid bits (60_exceptions.md R209). -/
theorem raiseError_valid_of_configError {c : Code} (hc : c.isConfigError = true) (s : State) :
    (raiseError c s).status.rangeValid = false ∧ (raiseError c s).status.feistelValid = false := by
  simp [hc]

/-- Any other code leaves the valid bits alone (60_exceptions.md R210). -/
theorem raiseError_valid_of_not_configError {c : Code} (hc : c.isConfigError = false) (s : State) :
    (raiseError c s).status.rangeValid = s.status.rangeValid ∧
    (raiseError c s).status.feistelValid = s.status.feistelValid := by
  simp [hc]

/-- Settles O46: none of the three codes is a configuration error. -/
theorem usageErrorsKeepTheConfiguration : Obligations.UsageErrorsKeepTheConfiguration := by
  intro w s t ht hcode
  have herr : t.status.err ≠ .ok := by rcases hcode with h | h | h <;> rw [h] <;> decide
  obtain ⟨c, rfl⟩ := completeCommand_error ht herr
  obtain ⟨hc, -, hresult, hcfg⟩ := raiseError_outputs c s
  have hnot : c.isConfigError = false := by
    rw [hc] at hcode
    rcases hcode with rfl | rfl | rfl <;> rfl
  obtain ⟨hrange, hfeistel⟩ := raiseError_valid_of_not_configError hnot s
  exact ⟨hcfg, hrange, hfeistel, hresult⟩

/-- With both valid bits 0 at accept no encode or decode computes (60_exceptions.md R207). -/
theorem exec_of_not_configured {j : Instr} (hj : j.isCompute = true) (hrange : s.latch.rangeValid = false)
    (hfeistel : s.latch.feistelValid = false) : exec j s = .next (raiseError .notConfigured s) := by
  cases j with
  | cfgRange r | cfgFeistel r => cases hj
  | rangeEnc | rangeDec => exact rangeCommand_of_not_configured hrange
  | feistelEnc | feistelDec => exact feistelCommand_of_not_configured hfeistel

/-- Settles O45: the code is a configuration error, and the next command copies the cleared valid bits. -/
theorem configurationErrorInvalidates : Obligations.ConfigurationErrorInvalidates := by
  intro i s t ht hcode
  have herr : t.status.err ≠ .ok := by rcases hcode with h | h | h <;> rw [h] <;> decide
  obtain ⟨c, rfl⟩ := exec_error ht herr
  obtain ⟨hc, -, hresult, hcfg⟩ := raiseError_outputs c s
  have hconfig : c.isConfigError = true := by
    rw [hc] at hcode
    rcases hcode with rfl | rfl | rfl <;> rfl
  obtain ⟨hrange, hfeistel⟩ := raiseError_valid_of_configError hconfig s
  refine ⟨hcfg, hrange, hfeistel, fun j m hj => ?_⟩
  exact ⟨_, exec_of_not_configured hj hrange hfeistel, rfl, hresult, hrange, hfeistel⟩

/-! ## The order of the checks -/

theorem cfgRange_err {P : Params} {r : Nat} (ht : cfgRange P r s = .next t) :
    t.status.err = if s.latch.b.toNat ≤ s.latch.a.toNat then .rangeEmpty
      else if P.numRc < r then .roundsExceedTable else .ok := by
  rcases cfgRange_cases P r s with ⟨hba, ho⟩ | ⟨hab, hr, ho⟩ | ⟨hab, hr, ho⟩ <;> cases ho.symm.trans ht
  · rw [if_pos (BitVec.le_def.1 hba)]
    rfl
  · rw [if_neg (Nat.not_le.2 (BitVec.lt_def.1 hab)), if_pos hr]
    rfl
  · rw [if_neg (Nat.not_le.2 (BitVec.lt_def.1 hab)), if_neg (Nat.not_lt.2 hr)]
    rfl

theorem cfgFeistel_err {P : Params} {r : Nat} (ht : cfgFeistel P r s = .next t) :
    t.status.err = if 64 < s.latch.a.toNat then .bitsTooWide
      else if P.numRc < r then .roundsExceedTable else .ok := by
  rcases cfgFeistel_cases P r s with ⟨hwide, ho⟩ | ⟨hle, hr, ho⟩ | ⟨hle, hr, ho⟩ <;> cases ho.symm.trans ht
  · rw [if_pos hwide]
    rfl
  · rw [if_neg (Nat.not_lt.2 hle), if_pos hr]
    rfl
  · rw [if_neg (Nat.not_lt.2 hle), if_neg (Nat.not_lt.2 hr)]
    rfl

/-- The operand is outside the latched range, in numbers. -/
theorem inRange_eq_false_iff (s : State) :
    s.inRange = false ↔ s.latch.a.toNat < s.latch.cfg.min.toNat ∨
      s.latch.cfg.size.toNat ≤ s.latch.a.toNat - s.latch.cfg.min.toNat := by
  rw [← Bool.not_eq_true, inRange_iff]
  omega

theorem rangeCommand_err {w : Nat → Nat → Word → Word → Option (Word × Nat)} (ht : rangeCommand w s = .next t) :
    t.status.err = if s.latch.rangeValid = false then .notConfigured
      else if s.latch.a.toNat < s.latch.cfg.min.toNat ∨
        s.latch.cfg.size.toNat ≤ s.latch.a.toNat - s.latch.cfg.min.toNat then .outOfDomain else .ok := by
  simp only [← inRange_eq_false_iff]
  rcases rangeCommand_cases w s with ⟨hv, ho⟩ | ⟨hv, hout, ho⟩ | ⟨hv, hin, ho⟩
  · cases ho.symm.trans ht
    simp [hv]
  · cases ho.symm.trans ht
    simp [hv, hout]
  · obtain ⟨x, n, -, rfl⟩ := finishWalk_next (ho.symm.trans ht)
    simp [hv, hin]

/-- The operand is outside the latched Feistel domain, in numbers. -/
theorem inFeistelDomain_eq_false_iff (s : State) :
    s.inFeistelDomain = false ↔ 2 ^ (2 * s.latch.cfg.geom.h.toNat) ≤ s.latch.a.toNat := by
  rw [← Bool.not_eq_true, inFeistelDomain_iff, Nat.not_lt]

theorem feistelCommand_err {f : Nat → Nat → Word → Word} (ht : feistelCommand f s = .next t) :
    t.status.err = if s.latch.feistelValid = false then .notConfigured
      else if 2 ^ (2 * s.latch.cfg.geom.h.toNat) ≤ s.latch.a.toNat then .outOfDomain else .ok := by
  simp only [← inFeistelDomain_eq_false_iff]
  rcases feistelCommand_cases f s with ⟨hv, ho⟩ | ⟨hv, hout, ho⟩ | ⟨hv, hin, ho⟩ <;> cases ho.symm.trans ht
  · simp [hv]
  · simp [hv, hout]
  · simp [hv, hin]

/-- Settles O44: the code of an illegal word and of each command. -/
theorem errorPriority : Obligations.ErrorPriority := by
  refine ⟨fun w s t hw ht => ?_, fun s t r ht => cfgRange_err ht, fun s t r ht => cfgFeistel_err ht, ?_, ?_⟩
  · cases (completeCommand_of_illegal hw s).symm.trans ht
    rfl
  · rintro s t i (rfl | rfl) ht
    · exact rangeCommand_err ht
    · exact rangeCommand_err ht
  · rintro s t i (rfl | rfl) ht
    · exact feistelCommand_err ht
    · exact feistelCommand_err ht

end Sys2Proof.Machine

/-! The completion and the host (spec/60_exceptions.md sections 2 and 3): a `CMD` write before and after a completion,
and the level of the interrupt output. -/

namespace Sys2Proof.Machine

variable {s t : State}

/-! ## The two orders of a completion and a command -/

/-- `s` with other inputs still to reach the block (20_memory.md R90, log 1). -/
def withInputs (inputs : List Input) (s : State) : State := { s with inputs := inputs }

theorem withInputs_self {inputs : List Input} (h : s.inputs = inputs) : withInputs inputs s = s := by
  subst h
  rfl

/-- No completion reads or takes an input. -/
theorem unseenByCompletion_withInputs (inputs : List Input) : UnseenByCompletion (withInputs inputs) where
  latch _ := rfl
  raiseError_comm c _ := by cases c <;> rfl
  setConfig_comm _ _ _ _ _ := rfl
  setResult_comm _ _ _ := rfl

theorem engineTurn_withInputs (inputs : List Input) (s : State) :
    engineTurn (withInputs inputs s) = mapNext (withInputs inputs) (engineTurn s) := by
  rw [engineTurn, engineTurn, apply_ite (mapNext (withInputs inputs)),
    ← (unseenByCompletion_withInputs inputs).completeCommand_comm]
  rfl

theorem step_withInputs_write (off : BitVec 7) (width : Nat) (v : Word) (rest : List Input) (s : State) :
    step (withInputs (.write off width v :: rest) s) = hostWrite off width v (withInputs rest s) := rfl

/-- A step that answers is the first of a run. -/
theorem run_succ_of_step (hs : step s = .next t) (k : Nat) : core.run (k + 1) s = core.run k t := by
  have hcore : core.step s = .next t := hs
  simp only [Host.Core.run, hcore]

theorem run_two {u : State} (hs : step s = .next t) (ht : step t = .next u) : core.run 2 s = .next u := by
  rw [run_succ_of_step hs, run_succ_of_step ht]
  rfl

section
variable (hrst : s.rstN = true) (hbusy : s.status.busy = true) (hinputs : s.inputs = []) (ht : engineTurn s = .next t)
include hrst hbusy hinputs ht

/-- After its completion the block is idle, so the write is accepted (20_memory.md R88). -/
theorem run_completion_then_cmd (v : Word) :
    core.run 2 (withInputs [.engine, .write 0x10#7 64 v] s) = .next { accept v t with reply := .written } := by
  obtain ⟨-, -, hinputs', -, -, -, hrst', -, -, hidle, -⟩ := engineTurn_frame hrst hbusy ht
  have hcompletion : step (withInputs [.engine, .write 0x10#7 64 v] s) = .next (withInputs [.write 0x10#7 64 v] t) :=
    calc step (withInputs [.engine, .write 0x10#7 64 v] s)
      _ = engineTurn (withInputs [.write 0x10#7 64 v] s) := step_of_engine rfl
      _ = .next (withInputs [.write 0x10#7 64 v] t) := by rw [engineTurn_withInputs, ht, mapNext_next]
  have hwrite : step (withInputs [.write 0x10#7 64 v] t) = .next { accept v t with reply := .written } :=
    calc step (withInputs [.write 0x10#7 64 v] t)
      _ = hostWrite 0x10#7 64 v (withInputs [] t) := step_withInputs_write _ _ _ _ _
      _ = hostWrite 0x10#7 64 v t := by rw [withInputs_self (hinputs'.trans hinputs)]
      _ = .next { accept v t with reply := .written } := hostWrite_cmd_of_idle (hrst'.trans hrst) hidle v
  exact run_two hcompletion hwrite

/-- With the command in flight the write is an overrun, and the completion comes after it (20_memory.md R89). -/
theorem run_cmd_then_completion (v : Word) :
    core.run 2 (withInputs [.write 0x10#7 64 v, .engine] s) = .next (answeredOverrun t) := by
  have hwrite : step (withInputs [.write 0x10#7 64 v, .engine] s) = .next (answeredOverrun (withInputs [.engine] s)) :=
    calc step (withInputs [.write 0x10#7 64 v, .engine] s)
      _ = hostWrite 0x10#7 64 v (withInputs [.engine] s) := step_withInputs_write _ _ _ _ _
      _ = .next (answeredOverrun (withInputs [.engine] s)) :=
        hostWrite_cmd_of_busy (s := withInputs [.engine] s) hrst hbusy v
  have hcompletion : step (answeredOverrun (withInputs [.engine] s)) = .next (answeredOverrun t) :=
    calc step (answeredOverrun (withInputs [.engine] s))
      _ = engineTurn (answeredOverrun (withInputs [] s)) := step_of_engine rfl
      _ = .next (answeredOverrun t) := by
        rw [withInputs_self hinputs, engineTurn_answeredOverrun, ht, mapNext_next]
  exact run_two hwrite hcompletion

end

/-- Settles O57: the two runs, step by step. -/
theorem bothOrdersOfCompletionAndCommand : Obligations.BothOrdersOfCompletionAndCommand := by
  intro s t v hrst hbusy hinputs ht
  exact ⟨run_completion_then_cmd hrst hbusy hinputs ht v, run_cmd_then_completion hrst hbusy hinputs ht v⟩

/-! ## The interrupt output -/

/-- The register of a defined access is the one at its offset (20_memory.md R81). -/
theorem eq_of_accessed {off : BitVec 7} {width : Nat} {r : Reg} (h : accessed off width = some r) :
    off = r.offset ∧ width = 64 := by
  obtain ⟨hwidth, -⟩ := (accessed_isSome_iff off width).1 (h ▸ rfl)
  subst hwidth
  exact ⟨(offset_of_regAt h).symm, rfl⟩

/-- Everything an input can do to the interrupt output: the input, and the level after it (60_exceptions.md R214). -/
inductive IrqEffect (s : State) : Input → Bool → Prop
  | kept (e : Input) : IrqEffect s e s.irq
  | completion (hbusy : s.status.busy = true) : IrqEffect s .engine s.ie
  | ctrl (v : Word) : IrqEffect s (.write 0x00#7 64 v) (s.status.done && v.getLsbD 0)
  | status (v : Word) : IrqEffect s (.write 0x08#7 64 v) (s.irq && !v.getLsbD 1)
  | accept (v : Word) (hidle : s.status.busy = false) : IrqEffect s (.write 0x10#7 64 v) false
  | reset (level : Bool) : IrqEffect s (.rst level) false

theorem irq_writeOneToClear (v : Word) (s : State) : (writeReg .status v s).irq = (s.irq && !v.getLsbD 1) :=
  Bool.and_right_comm _ _ _

theorem irqEffect_writeReg (r : Reg) (v : Word) (s : State) :
    IrqEffect s (.write r.offset 64 v) (writeReg r v s).irq := by
  cases r with
  | ctrl => exact .ctrl v
  | status =>
    rw [irq_writeOneToClear]
    exact .status v
  | cmd =>
    cases hbusy : s.status.busy with
    | false =>
      rw [writeReg_cmd_of_idle hbusy]
      exact .accept v hbusy
    | true =>
      rw [writeReg_cmd_of_busy hbusy]
      exact .kept _
  | _ => exact .kept _

/-- A completion sets `DONE` and keeps `IE`. -/
theorem KeptByCompletion.irq_eq (h : KeptByCompletion s t) : t.irq = s.ie := by
  obtain ⟨-, -, -, -, -, hie, -, -, -, -, hdone⟩ := h
  rw [State.irq, hdone, hie, Bool.true_and]

theorem irqEffect_engineTurn (ht : engineTurn s = .next t) : IrqEffect s .engine t.irq := by
  rcases engineTurn_cases s with ⟨-, hbusy, ho⟩ | ⟨-, ho⟩
  · rw [(completeCommand_frame (ho.symm.trans ht)).irq_eq]
    exact .completion hbusy
  · cases ho.symm.trans ht
    exact .kept _

theorem irqEffect_driveReset (level : Bool) (s : State) : IrqEffect s (.rst level) (driveReset level s).irq := by
  rcases driveReset_cases level s with ⟨-, -, ho⟩ | ⟨-, ho⟩ <;> rw [ho]
  · exact .kept _
  · exact .reset level

theorem irqEffect_applyInput {e : Input} (ht : applyInput e s = .next t) : IrqEffect s e t.irq := by
  cases e with
  | read off width =>
    obtain ⟨-, r, -, rfl⟩ := hostRead_next ht
    exact .kept _
  | write off width v =>
    obtain ⟨-, r, hacc, rfl⟩ := hostWrite_next ht
    obtain ⟨rfl, rfl⟩ := eq_of_accessed hacc
    exact irqEffect_writeReg r v s
  | engine => exact irqEffect_engineTurn ht
  | rst level =>
    cases ht
    exact irqEffect_driveReset level s

/-- What raises the output: a completion or a write of `CTRL`. -/
theorem IrqEffect.rise {e : Input} {level : Bool} (h : IrqEffect s e level) (hlow : s.irq = false)
    (hhigh : level = true) :
    (e = .engine ∧ s.status.busy = true ∧ s.ie = true) ∨
    (∃ v, e = .write 0x00#7 64 v ∧ v.getLsbD 0 = true ∧ s.status.done = true) := by
  cases h with
  | kept => exact nomatch hlow.symm.trans hhigh
  | completion hbusy => exact .inl ⟨rfl, hbusy, hhigh⟩
  | ctrl v =>
    obtain ⟨hdone, hie⟩ := Bool.and_eq_true_iff.1 hhigh
    exact .inr ⟨v, rfl, hie, hdone⟩
  | status v => simp [hlow] at hhigh
  | accept v hidle => cases hhigh
  | reset l => cases hhigh

/-- What lowers the output: a write that clears `DONE`, an accept, a write that clears `IE`, or reset. A completion keeps
a high output high. -/
theorem IrqEffect.fall {e : Input} {level : Bool} (h : IrqEffect s e level) (hhigh : s.irq = true)
    (hlow : level = false) :
    (∃ v, e = .write 0x08#7 64 v ∧ v.getLsbD 1 = true) ∨
    (∃ v, e = .write 0x10#7 64 v ∧ s.status.busy = false) ∨
    (∃ v, e = .write 0x00#7 64 v ∧ v.getLsbD 0 = false) ∨
    (∃ l, e = .rst l) := by
  obtain ⟨hdone, hie⟩ := Bool.and_eq_true_iff.1 hhigh
  cases h with
  | kept => exact nomatch hhigh.symm.trans hlow
  | completion hbusy => exact nomatch hie.symm.trans hlow
  | ctrl v => exact .inr (.inr (.inl ⟨v, rfl, by simpa [hdone] using hlow⟩))
  | status v => exact .inl ⟨v, rfl, by simpa [hhigh] using hlow⟩
  | accept v hidle => exact .inr (.inl ⟨v, rfl, hidle⟩)
  | reset l => exact .inr (.inr (.inr ⟨l, rfl⟩))

theorem irq_driveReset_false (s : State) : (driveReset false s).irq = false := by
  rcases driveReset_cases false s with ⟨hlevel, -⟩ | ⟨-, ho⟩
  · cases hlevel
  · rw [ho]
    rfl

/-- Settles O13: what each input does to the output, and the writes, the completion and the reset that settle it. -/
theorem interruptLevel : Obligations.InterruptLevel := by
  refine ⟨fun _ => rfl, fun s t e ht hlow hhigh => (irqEffect_applyInput ht).rise hlow hhigh,
    fun s t e ht hhigh hlow => (irqEffect_applyInput ht).fall hhigh hlow,
    fun s t w ht => (completeCommand_frame ht).irq_eq, fun s v hrst => ⟨?_, fun hv => ?_, fun hidle => ?_⟩,
    rfl, irq_driveReset_false⟩
  · exact ⟨_, hostWrite_offset hrst .ctrl v, rfl⟩
  · refine ⟨_, hostWrite_offset hrst .status v, (irq_writeOneToClear v s).trans ?_⟩
    simp [hv]
  · exact ⟨_, hostWrite_cmd_of_idle hrst hidle v, rfl⟩

end Sys2Proof.Machine

/-! Reset (spec/70_reset_and_hazards.md section 1): the reset values, what `rst_n` does to accesses and to a command in
flight, and the first command after reset. -/

namespace Sys2Proof.Machine

variable {P : Params} {s : State}

/-! ## The reset state -/

/-- Settles O51: the reset configuration is consistent, no command is in flight and `rst_n` is deasserted. -/
theorem resetMeetsTheInvariant : Obligations.ResetMeetsTheInvariant :=
  ⟨CfgRegs.reset_consistent, nofun, nofun⟩

/-- Asserting `rst_n` resets the block whatever its level was (70_reset_and_hazards.md R230). -/
theorem driveReset_false (s : State) :
    driveReset false s = { State.reset with rstN := false, inputs := s.inputs } := rfl

/-- Deasserting `rst_n` leaves the reset state (70_reset_and_hazards.md R230). -/
theorem driveReset_true_driveReset_false (s : State) :
    driveReset true (driveReset false s) = { State.reset with inputs := s.inputs } := rfl

theorem ctrlWord_false : ctrlWord false = 0#64 := by decide

theorem Status.toWord_reset : Status.reset.toWord = 0#64 := by decide

theorem CfgRegs.geomWord_reset : CfgRegs.reset.geom.toWord = 0#64 := by decide

/-- Every register but `ID` reads 0 after reset, at either level of `rst_n`. -/
theorem readReg_reset {r : Reg} (hr : r ≠ .id) (level : Bool) (inputs : List Input) :
    readReg P r { State.reset with rstN := level, inputs := inputs } = 0#64 := by
  cases r with
  | id => exact absurd rfl hr
  | ctrl => exact ctrlWord_false
  | status => exact Status.toWord_reset
  | cfgGeom => exact CfgRegs.geomWord_reset
  | _ => rfl

/-! ## Accesses in reset -/

theorem hostRead_in_reset (hrst : s.rstN = false) (off : BitVec 7) (width : Nat) :
    hostRead P off width s = .fault .accessInReset := by
  simp [hostRead, hrst]

theorem hostWrite_in_reset (hrst : s.rstN = false) (off : BitVec 7) (width : Nat) (v : Word) :
    hostWrite off width v s = .fault .accessInReset := by
  simp [hostWrite, hrst]

/-- Settles O14: the reads of the reset state, the constant `ID`, and accesses with `rst_n` asserted. -/
theorem resetValues : Obligations.ResetValues := by
  refine ⟨fun r hr => readReg_reset hr true [], fun s => rfl, rfl, rfl, rfl, fun s => ⟨fun r hr => ?_, rfl, ?_, ?_⟩⟩
  · rw [driveReset_false]
    exact readReg_reset hr false s.inputs
  · exact driveReset_true_driveReset_false s
  · exact fun off width v => ⟨hostRead_in_reset rfl off width, hostWrite_in_reset rfl off width v⟩

/-! ## A command in flight at reset -/

theorem engineTurn_of_idle (hidle : s.status.busy = false) : engineTurn s = .next s := by
  rcases engineTurn_cases s with ⟨-, hbusy, -⟩ | ⟨-, ho⟩
  · exact nomatch hidle.symm.trans hbusy
  · exact ho

/-- Settles O15: reset leaves the engine idle, and an idle engine's turn does nothing. -/
theorem resetAbortsTheCommand : Obligations.ResetAbortsTheCommand := by
  intro s _ _ t u
  refine ⟨engineTurn_of_idle rfl, engineTurn_of_idle rfl, ?_⟩
  rintro x (rfl | rfl)
  · exact ⟨rfl, rfl, rfl, rfl⟩
  · exact ⟨rfl, rfl, rfl, rfl⟩

/-! ## The first command after reset -/

/-- The command word `w` offered in the reset state completes: `STATUS` reads `v`, `CMD` reads `w`, and there are no
iterations and no result (95_test_vectors.md V1). -/
def CompletesFromReset (w v : Nat) : Prop :=
  ∃ t, step (State.reset.withFetchWord 64 w) = .next t ∧ t.status.toWord.toNat = v ∧ t.cmdLast.toNat = w ∧
    t.iterCount = 0#64 ∧ t.result = 0#64

/-- The reset state with the command word of a table row accepted. -/
def acceptedFromReset (w : Nat) : State := accept (tableWord 64 w) State.reset

/-- The step after reset completes the word offered, with both operands and the configuration at their reset values. -/
theorem step_reset_withFetchWord (w : Nat) :
    step (State.reset.withFetchWord 64 w) = completeCommand (tableWord 64 w) (acceptedFromReset w) :=
  calc step (State.reset.withFetchWord 64 w)
    _ = engineTurn (acceptedFromReset w) := step_of_engine rfl
    _ = completeCommand (tableWord 64 w) (acceptedFromReset w) := engineTurn_of_busy rfl rfl

theorem toNat_tableWord {w : Nat} (hw : w < 2 ^ 64) : (tableWord 64 w).toNat = w := by
  rw [tableWord, BitVec.toNat_ofNat, Nat.mod_mod, Nat.mod_eq_of_lt hw]

theorem status_raiseError_acceptedFromReset (c : Code) (w : Nat) :
    (raiseError c (acceptedFromReset w)).status = Status.reset.completed c := by
  cases c <;> rfl

/-- With no other flag set a completion reads as its code at bit 8 and `DONE` (10_state.md section 4). -/
theorem Status.toNat_toWord_reset_completed (c : Code) :
    (Status.reset.completed c).toWord.toNat = c.bits.toNat * 2 ^ 8 + 2 := by
  cases c <;> decide

theorem completesFromReset_of_raiseError {w : Nat} {c : Code} (hw : w < 2 ^ 64)
    (ht : completeCommand (tableWord 64 w) (acceptedFromReset w) = .next (raiseError c (acceptedFromReset w))) :
    CompletesFromReset w (c.bits.toNat * 2 ^ 8 + 2) := by
  obtain ⟨-, hiter, hresult, -⟩ := raiseError_outputs c (acceptedFromReset w)
  refine ⟨_, (step_reset_withFetchWord w).trans ht, ?_, ?_, hiter, hresult⟩
  · rw [status_raiseError_acceptedFromReset, Status.toNat_toWord_reset_completed]
  · rw [raiseError_cmdLast]
    exact toNat_tableWord hw

theorem completeCommand_of_decode_error {w : Word} {e : Illegal} (h : decode w = .error e) (s : State) :
    completeCommand w s = .next (raiseError .illegalCmd s) := by
  simp [completeCommand, h]

theorem completesFromReset_of_illegal {w : Nat} {e : Illegal} (hw : w < 2 ^ 64)
    (h : decode (tableWord 64 w) = .error e) : CompletesFromReset w 0x102 :=
  completesFromReset_of_raiseError (c := .illegalCmd) hw (completeCommand_of_decode_error h _)

/-- The operands after reset are the empty range `[0, 0)`, for every round count (60_exceptions.md R211). -/
theorem completesFromReset_of_cfgRange {w r : Nat} (hw : w < 2 ^ 64) (h : decode (tableWord 64 w) = .ok (.cfgRange r)) :
    CompletesFromReset w 0x202 :=
  completesFromReset_of_raiseError (c := .rangeEmpty) hw
    ((completeCommand_of_decode h _).trans (cfgRange_of_empty (BitVec.le_refl _)))

/-- Nothing is configured after reset. -/
theorem completesFromReset_of_compute {w : Nat} {i : Instr} (hw : w < 2 ^ 64) (h : decode (tableWord 64 w) = .ok i)
    (hi : i.isCompute = true) : CompletesFromReset w 0x502 :=
  completesFromReset_of_raiseError (c := .notConfigured) hw
    ((completeCommand_of_decode h _).trans (exec_of_not_configured hi rfl rfl))

/-- The width after reset is 0, which every round count of the table configures. -/
theorem completesFromReset_of_cfgFeistel {w r : Nat} (hw : w < 2 ^ 64)
    (h : decode (tableWord 64 w) = .ok (.cfgFeistel r)) (hr : r ≤ Config.params.numRc) : CompletesFromReset w 0x12 := by
  have hstatus : ((Status.reset.withValid false true).completed .ok).toWord.toNat = 0x12 := by decide
  exact ⟨_, ((step_reset_withFetchWord w).trans (completeCommand_of_decode h _)).trans
    (cfgFeistel_of_legal (Nat.zero_le _) hr), hstatus, toNat_tableWord hw, rfl, rfl⟩

/-- Settles O16: each word is illegal, a `CFG_RANGE`, an encode or decode, or a `CFG_FEISTEL`. -/
theorem commandsFromReset : Obligations.CommandsFromReset := by
  have hr : 3 ≤ Config.params.numRc := le_trans (by decide) Config.params.numRc_ge
  exact ⟨completesFromReset_of_illegal (by decide) rfl, completesFromReset_of_cfgRange (by decide) rfl,
    completesFromReset_of_cfgFeistel (by decide) rfl hr, completesFromReset_of_compute (by decide) rfl rfl,
    completesFromReset_of_compute (by decide) rfl rfl, completesFromReset_of_compute (by decide) rfl rfl,
    completesFromReset_of_compute (by decide) rfl rfl, completesFromReset_of_illegal (by decide) rfl,
    completesFromReset_of_illegal (by decide) rfl, completesFromReset_of_illegal (by decide) rfl,
    completesFromReset_of_illegal (by decide) rfl, completesFromReset_of_illegal (by decide) rfl,
    completesFromReset_of_illegal (by decide) rfl, completesFromReset_of_cfgRange (by decide) rfl,
    completesFromReset_of_cfgRange (by decide) rfl⟩

end Sys2Proof.Machine

/-! Progress (spec/70_reset_and_hazards.md section 4): with a command in flight every defined host access is answered,
and the engine's turn completes the command. -/

namespace Sys2Proof.Machine

variable {P : Params} {s : State}

/-! ## Accesses to a busy block -/

theorem isHostAccess_of_isDefinedAccess {e : Input} (he : e.isDefinedAccess = true) : e.isHostAccess = true := by
  cases e with
  | read off width | write off width v => rfl
  | engine | rst level => cases he

/-- Out of reset the port answers every defined access, and the access takes none of the inputs behind it
(20_memory.md R81). -/
theorem exists_answer_of_isDefinedAccess (hrst : s.rstN = true) {e : Input} (he : e.isDefinedAccess = true) :
    ∃ t, applyInput e s = .next t ∧ t.reply ≠ .idle ∧ t.inputs = s.inputs := by
  cases e with
  | read off width =>
    obtain ⟨rfl, haligned⟩ : width = 64 ∧ off.toNat % 8 = 0 := by simpa [Input.isDefinedAccess] using he
    obtain ⟨r, rfl⟩ := exists_reg_of_aligned haligned
    exact ⟨_, hostRead_offset hrst r, nofun, rfl⟩
  | write off width v =>
    obtain ⟨rfl, haligned⟩ : width = 64 ∧ off.toNat % 8 = 0 := by simpa [Input.isDefinedAccess] using he
    obtain ⟨r, rfl⟩ := exists_reg_of_aligned haligned
    obtain ⟨-, -, -, -, -, hinputs, -⟩ := writeReg_frame r v s
    exact ⟨_, hostWrite_offset hrst r v, nofun, hinputs⟩
  | engine | rst level => cases he

/-- Settles O54: the access is answered, and no host access ends a command in flight. -/
theorem busAnsweredWhileBusy : Obligations.BusAnsweredWhileBusy := by
  intro s e hrst hbusy he
  obtain ⟨t, ht, hreply, -⟩ := exists_answer_of_isDefinedAccess hrst he
  obtain ⟨-, heffect⟩ := hostAccess_next (isHostAccess_of_isDefinedAccess he) ht
  obtain ⟨-, -, hbusy', -⟩ := heffect.busy hbusy
  exact ⟨t, ht, hbusy', hreply⟩

/-! ## Every command ends -/

/-- A range command ends in an error or, by 42_range.md R171, its walk does. -/
theorem exists_rangeCommand {F G : Nat → Nat → Word → Word} (hinv : s.LatchInv P)
    (hFG : s.latch.cfg.CoversRange →
      UndoneOnDomain s.latch.cfg.geom.h.toNat (s.latch.cfg.cipher F) (s.latch.cfg.cipher G)) :
    ∃ t, rangeCommand (walkWith F) s = .next t := by
  rcases rangeCommand_cases (walkWith F) s with ⟨-, ho⟩ | ⟨-, -, ho⟩ | ⟨hv, hin, -⟩
  · exact ⟨_, ho⟩
  · exact ⟨_, ho⟩
  · have hc : s.latch.cfg.CoversRange := hinv.coversRange hv
    obtain ⟨v, -, count, -, ho⟩ := exists_rangeCommand_of_mem hc hv ((inRange_iff_mem_range s).1 hin) (hFG hc)
    exact ⟨_, ho⟩

theorem exists_exec (hinv : s.LatchInv P) (i : Instr) : ∃ t, exec i s = .next t := by
  cases i with
  | cfgRange r | cfgFeistel r => exact ⟨_, rfl⟩
  | rangeEnc => exact exists_rangeCommand hinv fun hc => hc.undone_enc Config.params
  | rangeDec => exact exists_rangeCommand hinv fun hc => hc.undone_dec Config.params
  | feistelEnc | feistelDec => exact ⟨_, rfl⟩

/-- A command accepted under consistent configuration registers completes, whatever its word. -/
theorem exists_completeCommand (hinv : s.LatchInv P) (w : Word) : ∃ t, completeCommand w s = .next t := by
  rcases completeCommand_cases w s with ⟨i, -, ho⟩ | ⟨e, -, ho⟩
  · obtain ⟨t, ht⟩ := exists_exec hinv i
    exact ⟨t, ho.trans ht⟩
  · exact ⟨_, ho⟩

/-- The copies of the command in flight are consistent, being those of the registers. -/
theorem State.Inv.latchInv (hinv : s.Inv P) (hbusy : s.status.busy = true) : s.LatchInv P := by
  obtain ⟨hcfg, hflight, -⟩ := hinv
  obtain ⟨-, hlatch, hrange, hfeistel, -, -⟩ := hflight hbusy
  rw [State.LatchInv, hlatch, hrange, hfeistel]
  exact hcfg

theorem exists_engineTurn (hinv : s.Inv P) (hrst : s.rstN = true) (hbusy : s.status.busy = true) :
    ∃ t, engineTurn s = .next t := by
  rw [engineTurn_of_busy hrst hbusy]
  exact exists_completeCommand (hinv.latchInv hbusy) _

/-! ## A run up to the completion -/

theorem step_of_input {e : Input} {rest : List Input} (h : s.inputs = e :: rest) :
    step s = applyInput e (withInputs rest s) := by
  rw [step, takeInput, h]
  rfl

/-- A command in flight under the invariant, with `inputs` still to reach the block. -/
structure AwaitsCompletion (inputs : List Input) (s : State) : Prop where
  inv : s.Inv Config.params
  rstN : s.rstN = true
  busy : s.status.busy = true
  inputs_eq : s.inputs = inputs

/-- A defined access leaves the command in flight, one input nearer its completion. -/
theorem AwaitsCompletion.step_access {e : Input} {rest : List Input} (h : AwaitsCompletion (e :: rest) s)
    (he : e.isDefinedAccess = true) : ∃ t, step s = .next t ∧ AwaitsCompletion rest t := by
  obtain ⟨t, ht, -, hinputs⟩ := exists_answer_of_isDefinedAccess (s := withInputs rest s) h.rstN he
  obtain ⟨-, heffect⟩ := hostAccess_next (isHostAccess_of_isDefinedAccess he) ht
  obtain ⟨-, -, hbusy, -⟩ := heffect.busy h.busy
  have hstep : step s = .next t := (step_of_input h.inputs_eq).trans ht
  exact ⟨t, hstep, stepKeepsTheInvariant s t h.inv hstep, heffect.rstN.trans h.rstN, hbusy, hinputs⟩

/-- The engine's turn completes the command (30_encoding.md R107). -/
theorem AwaitsCompletion.step_engine {rest : List Input} (h : AwaitsCompletion (.engine :: rest) s) :
    ∃ t, step s = .next t ∧ t.status.busy = false ∧ t.status.done = true ∧ t.inputs = rest := by
  obtain ⟨t, ht⟩ := exists_engineTurn (s := withInputs rest s) (h.inv.withInputs rest) h.rstN h.busy
  obtain ⟨-, -, hinputs, -, -, -, -, -, -, hbusy, hdone⟩ := engineTurn_frame (s := withInputs rest s) h.rstN h.busy ht
  exact ⟨t, (step_of_engine h.inputs_eq).trans ht, hbusy, hdone, hinputs⟩

theorem AwaitsCompletion.run {accesses rest : List Input} (h : AwaitsCompletion (accesses ++ .engine :: rest) s)
    (hdefined : ∀ e ∈ accesses, e.isDefinedAccess = true) :
    ∃ t, core.run (accesses.length + 1) s = .next t ∧ t.status.busy = false ∧ t.status.done = true ∧
      t.inputs = rest := by
  induction accesses generalizing s with
  | nil =>
    obtain ⟨t, ht, hcompleted⟩ := h.step_engine
    exact ⟨t, run_succ_of_step ht 0, hcompleted⟩
  | cons e accesses ih =>
    obtain ⟨he, hrest⟩ := List.forall_mem_cons.1 hdefined
    obtain ⟨t, ht, hnext⟩ := h.step_access he
    rw [List.length_cons, run_succ_of_step ht]
    exact ih hnext hrest

/-- Settles O53: each access leaves the command in flight under the invariant, so that its walk, if it has one, ends. -/
theorem acceptedCommandCompletes : Obligations.AcceptedCommandCompletes := by
  intro s accesses hinv hrst hbusy hdefined hinputs
  exact AwaitsCompletion.run ⟨hinv, hrst, hbusy, hinputs⟩ hdefined

end Sys2Proof.Machine
